-- ==== Sys2Proof/Word.lean ====
section
/-! DEFINITION. The machine's value types (10_state.md, 30_encoding.md): 8-bit bytes, 16-bit cells and words, the operand
fields' widths, register numbers. Every value of this machine is unsigned (rule R11). -/

namespace Sys2Proof

/-- A general register, a timer or a byte of memory: 8 bits (R20, R27, R33). -/
abbrev Byte := BitVec 8

/-- An instruction word, the program counter, the index register, a call-stack entry: 16 bits (R24, R25, R28, R80). -/
abbrev Word := BitVec 16

/-- The operand field `NNN`: 12 bits (R82). -/
abbrev Addr := BitVec 12

/-- The operand field `N`, and each 4-bit slice of a word: 4 bits (R10, R82). -/
abbrev Nibble := BitVec 4

/-- The number of a general register, 0 to 15 (R20). -/
abbrev Reg := Fin 16

/-- A keypad snapshot: bit k is 1 when key k is pressed (R34, R187). -/
abbrev KeySet := BitVec 16

/-- The framebuffer: byte `8*y + c` holds the pixels of row y, columns 8c to 8c + 7, bit 7 leftmost (R29 to R31). -/
abbrev Framebuffer := Vector Byte 256

end Sys2Proof
end

