-- ==== Sys2Proof/Machine/Flags.lean ====
section
/-! DEFINITION. The flags VF receives (10_state.md rule R22, 42_alu.md rules R136 to R142). The arithmetic is exact, on
natural numbers; each condition is the one its rule states, over the operands read before anything is written. -/

namespace Sys2Proof.Machine

/-- "The flag value is always 0 or 1" (R22). -/
def flagByte (b : Bool) : Byte := if b then 1 else 0

/-- 8XY4: the carry out of the 8-bit addition, `a + b > 255` (R136). -/
def carryFlag (a b : Byte) : Bool := decide (a.toNat + b.toNat > 255)

/-- 8XY5 and 8XY7: no borrow in `minuend - subtrahend`, "1 means no borrow" (R137, R139, R141). -/
def noBorrowFlag (minuend subtrahend : Byte) : Bool := !decide (subtrahend.toNat > minuend.toNat)

/-- 8XY6: the bit shifted out on the right, `a & 1` (R138). -/
def shiftedOutRight (a : Byte) : Bool := a.getLsbD 0

/-- 8XYE: the bit shifted out on the left, `a >> 7` (R140). -/
def shiftedOutLeft (a : Byte) : Bool := a.getLsbD 7

/-- DXYN: a written byte had a 1 bit where the mask has one (R172, R175). -/
def collides (old mask : Byte) : Bool := old &&& mask != 0

end Sys2Proof.Machine
end

