-- ==== Sys2Proof/Syntax.lean ====
section
/-! DEFINITION. The instructions: one constructor for each of the 34 rows of the opcode table (30_encoding.md rule R87),
with the operand fields the row has (R13, R82). Register fields are register numbers; the immediates are bit vectors of
their field's width, since the machine adds, masks and compares them. -/

namespace Sys2Proof

/-- The 34 instructions of rule R87. -/
inductive Instr where
  /-- 00E0: clear the framebuffer (R170). -/
  | cls
  /-- 00EE: return from subroutine (R110). -/
  | ret
  /-- 1NNN: jump, or halt when the jump is to itself (R111). -/
  | jp (nnn : Addr)
  /-- 2NNN: call subroutine (R112). -/
  | call (nnn : Addr)
  /-- 3XNN: skip when `V[X] = NN` (R120). -/
  | seImm (x : Reg) (nn : Byte)
  /-- 4XNN: skip when `V[X] ≠ NN` (R121). -/
  | sneImm (x : Reg) (nn : Byte)
  /-- 5XY0: skip when `V[X] = V[Y]` (R122). -/
  | seReg (x y : Reg)
  /-- 6XNN: load immediate (R130). -/
  | ldImm (x : Reg) (nn : Byte)
  /-- 7XNN: add immediate, no flag (R131). -/
  | addImm (x : Reg) (nn : Byte)
  /-- 8XY0: copy register (R132). -/
  | ldReg (x y : Reg)
  /-- 8XY1: bitwise or (R133). -/
  | orReg (x y : Reg)
  /-- 8XY2: bitwise and (R134). -/
  | andReg (x y : Reg)
  /-- 8XY3: bitwise exclusive or (R135). -/
  | xorReg (x y : Reg)
  /-- 8XY4: add with carry flag (R136). -/
  | addReg (x y : Reg)
  /-- 8XY5: subtract `V[Y]` from `V[X]`, no-borrow flag (R137). -/
  | sub (x y : Reg)
  /-- 8XY6: shift `V[X]` right by one; the field Y is ignored (R138). -/
  | shr (x y : Reg)
  /-- 8XY7: `V[X] = V[Y] - V[X]`, no-borrow flag (R139). -/
  | subn (x y : Reg)
  /-- 8XYE: shift `V[X]` left by one; the field Y is ignored (R140). -/
  | shl (x y : Reg)
  /-- 9XY0: skip when `V[X] ≠ V[Y]` (R123). -/
  | sneReg (x y : Reg)
  /-- ANNN: load the index register (R150). -/
  | ldI (nnn : Addr)
  /-- BNNN: jump to `NNN + V[0]` (R113). -/
  | jpV0 (nnn : Addr)
  /-- CXNN: random byte masked with NN (R143). -/
  | rnd (x : Reg) (nn : Byte)
  /-- DXYN: draw a sprite of N rows at (`V[X]`, `V[Y]`) (R172). -/
  | drw (x y : Reg) (n : Nibble)
  /-- EX9E: skip when key `V[X]` is pressed (R185). -/
  | skp (x : Reg)
  /-- EXA1: skip when key `V[X]` is not pressed (R186). -/
  | sknp (x : Reg)
  /-- FX07: read the delay timer (R189). -/
  | ldVxDt (x : Reg)
  /-- FX0A: wait for a key (R188). -/
  | ldVxK (x : Reg)
  /-- FX15: set the delay timer (R190). -/
  | ldDtVx (x : Reg)
  /-- FX18: set the sound timer (R191). -/
  | ldStVx (x : Reg)
  /-- FX1E: add `V[X]` to the index register (R151). -/
  | addI (x : Reg)
  /-- FX29: point I at the font glyph for `V[X]` (R152). -/
  | ldF (x : Reg)
  /-- FX33: store the three decimal digits of `V[X]` (R153). -/
  | ldB (x : Reg)
  /-- FX55: store registers V0 to VX (R154). -/
  | stRegs (x : Reg)
  /-- FX65: load registers V0 to VX (R155). -/
  | ldRegs (x : Reg)
  deriving DecidableEq, Repr

end Sys2Proof
end

