-- ==== Sys2Proof/WellFormed.lean ====
section
/-! DEFINITION. Which assembler lines are well formed (30_encoding.md rule R91), and the instruction each stands for. An
`Instr` carries its field widths in its types (R82), so every `Instr` is well formed; what can be ill formed is a LINE as
it is written, `MNEMONIC operand, operand` with plain numbers, and the checks of this file are over such lines: the number
of operands, and for each operand that it fits its field. -/

namespace Sys2Proof

/-- The operand fields of a word (R82): a register X or Y, and the immediates NN, NNN and N. -/
inductive OperandField where
  | reg | nn | nnn | n
  deriving DecidableEq, Repr

/-- One past the largest number the field holds (R82, R84). -/
def OperandField.limit : OperandField → Nat
  | .reg => 16
  | .nn => 256
  | .nnn => 4096
  | .n => 16

/-- The 34 labels of rule R91. -/
inductive Mnemonic where
  | cls | ret | jp | call | seImm | sneImm | seReg | ldImm | addImm | ldReg | orReg | andReg | xorReg
  | addReg | sub | shr | subn | shl | sneReg | ldI | jpV0 | rnd | drw | skp | sknp | ldVxDt | ldVxK | ldDtVx
  | ldStVx | addI | ldF | ldB | stRegs | ldRegs
  deriving DecidableEq, Repr

/-- The operands a line of this mnemonic has, in the order X, Y, N or X, NN or NNN (R91). `SHR` and `SHL` are written with
the one operand X. -/
def Mnemonic.operands : Mnemonic → List OperandField
  | .cls | .ret => []
  | .jp | .call | .ldI | .jpV0 => [.nnn]
  | .seImm | .sneImm | .ldImm | .addImm | .rnd => [.reg, .nn]
  | .seReg | .ldReg | .orReg | .andReg | .xorReg | .addReg | .sub | .subn | .sneReg => [.reg, .reg]
  | .drw => [.reg, .reg, .n]
  | .shr | .shl | .skp | .sknp | .ldVxDt | .ldVxK | .ldDtVx | .ldStVx | .addI | .ldF | .ldB | .stRegs
  | .ldRegs => [.reg]

/-- An assembler line as it is written: a mnemonic and its operands as plain numbers (R91). -/
structure AsmLine where
  mnemonic : Mnemonic
  args : List Nat
  deriving DecidableEq, Repr

/-- Each operand fits the field at its place, and there are as many operands as fields. -/
def operandsFit : List OperandField → List Nat → Bool
  | [], [] => true
  | f :: fs, a :: as => decide (a < f.limit) && operandsFit fs as
  | _, _ => false

/-- The line has the operands its mnemonic takes, each in the range of its field (R82, R91). -/
def AsmLine.wellFormed (l : AsmLine) : Bool := operandsFit l.mnemonic.operands l.args

/-- The k-th operand as a register number. -/
def AsmLine.reg (l : AsmLine) (k : Nat) : Reg := Fin.ofNat 16 (l.args.getD k 0)

/-- The k-th operand as an immediate of w bits. -/
def AsmLine.imm (l : AsmLine) (w k : Nat) : BitVec w := BitVec.ofNat w (l.args.getD k 0)

/-- The instruction a well-formed line stands for; `SHR` and `SHL` are assembled with Y = 0 (R91). -/
def AsmLine.instr (l : AsmLine) : Instr :=
  match l.mnemonic with
  | .cls => .cls
  | .ret => .ret
  | .jp => .jp (l.imm 12 0)
  | .call => .call (l.imm 12 0)
  | .seImm => .seImm (l.reg 0) (l.imm 8 1)
  | .sneImm => .sneImm (l.reg 0) (l.imm 8 1)
  | .seReg => .seReg (l.reg 0) (l.reg 1)
  | .ldImm => .ldImm (l.reg 0) (l.imm 8 1)
  | .addImm => .addImm (l.reg 0) (l.imm 8 1)
  | .ldReg => .ldReg (l.reg 0) (l.reg 1)
  | .orReg => .orReg (l.reg 0) (l.reg 1)
  | .andReg => .andReg (l.reg 0) (l.reg 1)
  | .xorReg => .xorReg (l.reg 0) (l.reg 1)
  | .addReg => .addReg (l.reg 0) (l.reg 1)
  | .sub => .sub (l.reg 0) (l.reg 1)
  | .shr => .shr (l.reg 0) 0
  | .subn => .subn (l.reg 0) (l.reg 1)
  | .shl => .shl (l.reg 0) 0
  | .sneReg => .sneReg (l.reg 0) (l.reg 1)
  | .ldI => .ldI (l.imm 12 0)
  | .jpV0 => .jpV0 (l.imm 12 0)
  | .rnd => .rnd (l.reg 0) (l.imm 8 1)
  | .drw => .drw (l.reg 0) (l.reg 1) (l.imm 4 2)
  | .skp => .skp (l.reg 0)
  | .sknp => .sknp (l.reg 0)
  | .ldVxDt => .ldVxDt (l.reg 0)
  | .ldVxK => .ldVxK (l.reg 0)
  | .ldDtVx => .ldDtVx (l.reg 0)
  | .ldStVx => .ldStVx (l.reg 0)
  | .addI => .addI (l.reg 0)
  | .ldF => .ldF (l.reg 0)
  | .ldB => .ldB (l.reg 0)
  | .stRegs => .stRegs (l.reg 0)
  | .ldRegs => .ldRegs (l.reg 0)

/-- Assemble one line: refused when it is not well formed. -/
def AsmLine.assemble (l : AsmLine) : Option Instr :=
  if l.wellFormed then some l.instr else none

end Sys2Proof
end

