-- ==== Sys2Proof/Decode.lean ====
section
/-! DEFINITION. The encoding (30_encoding.md): the fields of a word (R81, R82), the decoder (R85, R86) over words and over
bytes, then the encoder written from the same formats (R83, R87), the opcode table as data (R87), and the host's entry
point. -/

namespace Sys2Proof

/-! ### Fields of a word -/

/-- `OP = bits[15:12]` (R82). -/
def opField (w : Word) : Nibble := w.extractLsb' 12 4

/-- `bits[11:8]`, the field X as it stands (R82). -/
def xField (w : Word) : Nibble := w.extractLsb' 8 4

/-- `bits[7:4]`, the field Y as it stands (R82). -/
def yField (w : Word) : Nibble := w.extractLsb' 4 4

/-- `N = bits[3:0]` (R82). -/
def nField (w : Word) : Nibble := w.extractLsb' 0 4

/-- `NN = bits[7:0]` (R82). -/
def nnField (w : Word) : Byte := w.extractLsb' 0 8

/-- `NNN = bits[11:0]` (R82). -/
def nnnField (w : Word) : Addr := w.extractLsb' 0 12

/-- The register a 4-bit field names (R13). -/
def regOfNibble (n : Nibble) : Reg := ⟨n.toNat, n.isLt⟩

/-- The register the field X names. -/
def xReg (w : Word) : Reg := regOfNibble (xField w)

/-- The register the field Y names. -/
def yReg (w : Word) : Reg := regOfNibble (yField w)

/-- The 4-bit field that names a register. -/
def nibbleOfReg (r : Reg) : Nibble := BitVec.ofNat 4 r.val

/-! ### Words and bytes: most significant byte first (R52, R81) -/

/-- The word whose byte at the lower address is `hi` and at the next address `lo` (R52). -/
def wordOfBytes (hi lo : Byte) : Word := hi ++ lo

/-- `bits[15:8]`, the byte at the lower address (R52). -/
def highByte (w : Word) : Byte := w.extractLsb' 8 8

/-- `bits[7:0]`, the byte at the higher address (R52). -/
def lowByte (w : Word) : Byte := w.extractLsb' 0 8

/-! ### The decoder -/

/-- Why bytes are no instruction. -/
inductive DecodeError where
  /-- Fewer than the two bytes every instruction has (R80). -/
  | truncated
  /-- The word matches no row of the opcode table: it is illegal (R88). -/
  | unimplemented (w : Word)
  deriving DecidableEq, Repr

/-- Group 0 matches on the whole word (R86, decision D7). -/
def decodeGroup0 (w : Word) : Except DecodeError Instr :=
  if w = 0x00E0#16 then .ok .cls
  else if w = 0x00EE#16 then .ok .ret
  else .error (.unimplemented w)

/-- Group 8 is selected by the low nibble (R85). -/
def decodeGroup8 (w : Word) : Except DecodeError Instr :=
  match nField w with
  | 0x0#4 => .ok (.ldReg (xReg w) (yReg w))
  | 0x1#4 => .ok (.orReg (xReg w) (yReg w))
  | 0x2#4 => .ok (.andReg (xReg w) (yReg w))
  | 0x3#4 => .ok (.xorReg (xReg w) (yReg w))
  | 0x4#4 => .ok (.addReg (xReg w) (yReg w))
  | 0x5#4 => .ok (.sub (xReg w) (yReg w))
  | 0x6#4 => .ok (.shr (xReg w) (yReg w))
  | 0x7#4 => .ok (.subn (xReg w) (yReg w))
  | 0xE#4 => .ok (.shl (xReg w) (yReg w))
  | _ => .error (.unimplemented w)

/-- Group E is selected by the low byte (R85). -/
def decodeGroupE (w : Word) : Except DecodeError Instr :=
  match nnField w with
  | 0x9E#8 => .ok (.skp (xReg w))
  | 0xA1#8 => .ok (.sknp (xReg w))
  | _ => .error (.unimplemented w)

/-- Group F is selected by the low byte (R85). -/
def decodeGroupF (w : Word) : Except DecodeError Instr :=
  match nnField w with
  | 0x07#8 => .ok (.ldVxDt (xReg w))
  | 0x0A#8 => .ok (.ldVxK (xReg w))
  | 0x15#8 => .ok (.ldDtVx (xReg w))
  | 0x18#8 => .ok (.ldStVx (xReg w))
  | 0x1E#8 => .ok (.addI (xReg w))
  | 0x29#8 => .ok (.ldF (xReg w))
  | 0x33#8 => .ok (.ldB (xReg w))
  | 0x55#8 => .ok (.stRegs (xReg w))
  | 0x65#8 => .ok (.ldRegs (xReg w))
  | _ => .error (.unimplemented w)

/-- Decode a word: "classify by high nibble", then by the low nibble or the low byte (R85). Total; a word of no row is
refused by name (R88). The last arm is unreachable: the sixteen before it are all the nibbles. -/
def decodeWord (w : Word) : Except DecodeError Instr :=
  match opField w with
  | 0x0#4 => decodeGroup0 w
  | 0x1#4 => .ok (.jp (nnnField w))
  | 0x2#4 => .ok (.call (nnnField w))
  | 0x3#4 => .ok (.seImm (xReg w) (nnField w))
  | 0x4#4 => .ok (.sneImm (xReg w) (nnField w))
  | 0x5#4 => if nField w = 0#4 then .ok (.seReg (xReg w) (yReg w)) else .error (.unimplemented w)
  | 0x6#4 => .ok (.ldImm (xReg w) (nnField w))
  | 0x7#4 => .ok (.addImm (xReg w) (nnField w))
  | 0x8#4 => decodeGroup8 w
  | 0x9#4 => if nField w = 0#4 then .ok (.sneReg (xReg w) (yReg w)) else .error (.unimplemented w)
  | 0xA#4 => .ok (.ldI (nnnField w))
  | 0xB#4 => .ok (.jpV0 (nnnField w))
  | 0xC#4 => .ok (.rnd (xReg w) (nnField w))
  | 0xD#4 => .ok (.drw (xReg w) (yReg w) (nField w))
  | 0xE#4 => decodeGroupE w
  | 0xF#4 => decodeGroupF w
  | _ => .error (.unimplemented w)

/-- Decode the instruction at the head of a byte list and give back the bytes after it: every instruction is two bytes
(R80), most significant first (R52). Total on any bytes. -/
def decodeBytes : List Byte → Except DecodeError (Instr × List Byte)
  | hi :: lo :: rest => (decodeWord (wordOfBytes hi lo)).map (fun i => (i, rest))
  | _ => .error .truncated

/-! ### The encoder -/

/-- Format A (R83). -/
def encodeA (op : Nibble) (nnn : Addr) : Word := op ++ nnn

/-- Format RI (R83). -/
def encodeRI (op : Nibble) (x : Reg) (nn : Byte) : Word := op ++ nibbleOfReg x ++ nn

/-- Formats RR and RRN (R83): the last nibble is the minor opcode or N. -/
def encodeRRN (op : Nibble) (x y : Reg) (n : Nibble) : Word := op ++ nibbleOfReg x ++ nibbleOfReg y ++ n

/-- The word of an instruction, from its row of the opcode table (R83, R87). -/
def encode : Instr → Word
  | .cls => 0x00E0#16
  | .ret => 0x00EE#16
  | .jp nnn => encodeA 0x1 nnn
  | .call nnn => encodeA 0x2 nnn
  | .seImm x nn => encodeRI 0x3 x nn
  | .sneImm x nn => encodeRI 0x4 x nn
  | .seReg x y => encodeRRN 0x5 x y 0x0
  | .ldImm x nn => encodeRI 0x6 x nn
  | .addImm x nn => encodeRI 0x7 x nn
  | .ldReg x y => encodeRRN 0x8 x y 0x0
  | .orReg x y => encodeRRN 0x8 x y 0x1
  | .andReg x y => encodeRRN 0x8 x y 0x2
  | .xorReg x y => encodeRRN 0x8 x y 0x3
  | .addReg x y => encodeRRN 0x8 x y 0x4
  | .sub x y => encodeRRN 0x8 x y 0x5
  | .shr x y => encodeRRN 0x8 x y 0x6
  | .subn x y => encodeRRN 0x8 x y 0x7
  | .shl x y => encodeRRN 0x8 x y 0xE
  | .sneReg x y => encodeRRN 0x9 x y 0x0
  | .ldI nnn => encodeA 0xA nnn
  | .jpV0 nnn => encodeA 0xB nnn
  | .rnd x nn => encodeRI 0xC x nn
  | .drw x y n => encodeRRN 0xD x y n
  | .skp x => encodeRI 0xE x 0x9E
  | .sknp x => encodeRI 0xE x 0xA1
  | .ldVxDt x => encodeRI 0xF x 0x07
  | .ldVxK x => encodeRI 0xF x 0x0A
  | .ldDtVx x => encodeRI 0xF x 0x15
  | .ldStVx x => encodeRI 0xF x 0x18
  | .addI x => encodeRI 0xF x 0x1E
  | .ldF x => encodeRI 0xF x 0x29
  | .ldB x => encodeRI 0xF x 0x33
  | .stRegs x => encodeRI 0xF x 0x55
  | .ldRegs x => encodeRI 0xF x 0x65

/-- The two bytes of an instruction as memory holds them, lower address first (R52, R80). -/
def encodeBytes (i : Instr) : List Byte := [highByte (encode i), lowByte (encode i)]

/-! ### The opcode table as data -/

/-- One row of the opcode table: "a word w is the instruction when `w & mask = match`" (R87). -/
structure OpcodeRow where
  mask : Word
  pattern : Word
  deriving DecidableEq, Repr

/-- The word matches the row (R87). -/
def OpcodeRow.covers (r : OpcodeRow) (w : Word) : Bool := w &&& r.mask == r.pattern

/-- The row of an instruction in the table of rule R87. -/
def Instr.row : Instr → OpcodeRow
  | .cls => ⟨0xFFFF, 0x00E0⟩
  | .ret => ⟨0xFFFF, 0x00EE⟩
  | .jp _ => ⟨0xF000, 0x1000⟩
  | .call _ => ⟨0xF000, 0x2000⟩
  | .seImm _ _ => ⟨0xF000, 0x3000⟩
  | .sneImm _ _ => ⟨0xF000, 0x4000⟩
  | .seReg _ _ => ⟨0xF00F, 0x5000⟩
  | .ldImm _ _ => ⟨0xF000, 0x6000⟩
  | .addImm _ _ => ⟨0xF000, 0x7000⟩
  | .ldReg _ _ => ⟨0xF00F, 0x8000⟩
  | .orReg _ _ => ⟨0xF00F, 0x8001⟩
  | .andReg _ _ => ⟨0xF00F, 0x8002⟩
  | .xorReg _ _ => ⟨0xF00F, 0x8003⟩
  | .addReg _ _ => ⟨0xF00F, 0x8004⟩
  | .sub _ _ => ⟨0xF00F, 0x8005⟩
  | .shr _ _ => ⟨0xF00F, 0x8006⟩
  | .subn _ _ => ⟨0xF00F, 0x8007⟩
  | .shl _ _ => ⟨0xF00F, 0x800E⟩
  | .sneReg _ _ => ⟨0xF00F, 0x9000⟩
  | .ldI _ => ⟨0xF000, 0xA000⟩
  | .jpV0 _ => ⟨0xF000, 0xB000⟩
  | .rnd _ _ => ⟨0xF000, 0xC000⟩
  | .drw _ _ _ => ⟨0xF000, 0xD000⟩
  | .skp _ => ⟨0xF0FF, 0xE09E⟩
  | .sknp _ => ⟨0xF0FF, 0xE0A1⟩
  | .ldVxDt _ => ⟨0xF0FF, 0xF007⟩
  | .ldVxK _ => ⟨0xF0FF, 0xF00A⟩
  | .ldDtVx _ => ⟨0xF0FF, 0xF015⟩
  | .ldStVx _ => ⟨0xF0FF, 0xF018⟩
  | .addI _ => ⟨0xF0FF, 0xF01E⟩
  | .ldF _ => ⟨0xF0FF, 0xF029⟩
  | .ldB _ => ⟨0xF0FF, 0xF033⟩
  | .stRegs _ => ⟨0xF0FF, 0xF055⟩
  | .ldRegs _ => ⟨0xF0FF, 0xF065⟩

/-- The 34 rows of rule R87, in the table's order. -/
def opcodeTable : List OpcodeRow :=
  [⟨0xFFFF, 0x00E0⟩, ⟨0xFFFF, 0x00EE⟩, ⟨0xF000, 0x1000⟩, ⟨0xF000, 0x2000⟩, ⟨0xF000, 0x3000⟩, ⟨0xF000, 0x4000⟩,
   ⟨0xF00F, 0x5000⟩, ⟨0xF000, 0x6000⟩, ⟨0xF000, 0x7000⟩] ++
  [⟨0xF00F, 0x8000⟩, ⟨0xF00F, 0x8001⟩, ⟨0xF00F, 0x8002⟩, ⟨0xF00F, 0x8003⟩, ⟨0xF00F, 0x8004⟩, ⟨0xF00F, 0x8005⟩,
   ⟨0xF00F, 0x8006⟩, ⟨0xF00F, 0x8007⟩, ⟨0xF00F, 0x800E⟩] ++
  [⟨0xF00F, 0x9000⟩, ⟨0xF000, 0xA000⟩, ⟨0xF000, 0xB000⟩, ⟨0xF000, 0xC000⟩, ⟨0xF000, 0xD000⟩, ⟨0xF0FF, 0xE09E⟩,
   ⟨0xF0FF, 0xE0A1⟩] ++
  [⟨0xF0FF, 0xF007⟩, ⟨0xF0FF, 0xF00A⟩, ⟨0xF0FF, 0xF015⟩, ⟨0xF0FF, 0xF018⟩, ⟨0xF0FF, 0xF01E⟩, ⟨0xF0FF, 0xF029⟩,
   ⟨0xF0FF, 0xF033⟩, ⟨0xF0FF, 0xF055⟩, ⟨0xF0FF, 0xF065⟩]

/-! ### The host's entry point -/

/-- The word the host numbers `w`, of which `nbits` bits are the instruction's: bit 0 is the least significant bit of the
first word, which here is the only one (R80). -/
def tableWord (nbits w : Nat) : Word := BitVec.ofNat 16 (w % 2 ^ nbits)

/-- The instruction the decoder reads from a word of the opcode table, laid out as memory holds it (R52). -/
def decodeTableWord (nbits w : Nat) : Option Instr :=
  match decodeBytes [highByte (tableWord nbits w), lowByte (tableWord nbits w)] with
  | .ok (i, _) => some i
  | .error _ => none

end Sys2Proof
end

