-- ==== Sys2Proof/Machine/Operands.lean ====
section
/-! DEFINITION. How an operand's value is formed (30_encoding.md rule R84, 42 to 45): zero extension, the key number, the
decimal digits, the glyph address, the keys of a snapshot, the pixels of a sprite row. -/

namespace Sys2Proof.Machine

/-- `zext_16`: an unsigned value widened to 16 bits (R11, R84). -/
def zext16 {n : Nat} (v : BitVec n) : Word := v.setWidth 16

/-- The low four bits of a register as a key number: `k = V[X] & 0x0F` (R185, R187, decision D13). -/
def keyNumber (b : Byte) : Nat := (b &&& 0x0F).toNat

/-- Key k is pressed in the snapshot (R34, R187). -/
def keyPressed (kp : KeySet) (k : Nat) : Bool := kp.getLsbD k

/-- "the least k in 0..15 with KP[k] = 1" (R188, decision D14); none when no key is pressed. -/
def lowestKey (kp : KeySet) : Option Nat := (List.range 16).find? (keyPressed kp)

/-- The address of the glyph a register value names: `V[X] * 5`, unmasked (R152). -/
def glyphAddress (b : Byte) : Word := zext16 b * 5

/-- Hundreds, tens and ones of a register value, in the order they are stored (R153). -/
def decimalDigits (b : Byte) : List Byte :=
  [BitVec.ofNat 8 (b.toNat / 100), BitVec.ofNat 8 (b.toNat / 10 % 10), BitVec.ofNat 8 (b.toNat % 10)]

/-- The part of a sprite row that falls into byte column `x / 8`: `p >> s` with `s = x mod 8` (R172, R173, decision D12). -/
def leftPart (x : Nat) (p : Byte) : Byte := p >>> (x % 8)

/-- The part of a sprite row that falls into the next byte column: `(p << (8 - s)) & 0xFF` with `s = x mod 8`, for `s ≠ 0`
(R172, R173, decision D12). -/
def rightPart (x : Nat) (p : Byte) : Byte := p <<< (8 - x % 8)

end Sys2Proof.Machine
end

