-- ==== Sys2Proof/Config.lean ====
section
/-! DEFINITION. The parameters of the machine (00_scope.md rules R6 and R7) and the values its host supplies that the spec
leaves free. Fixed parameters are numerals; open parameters and free inputs are opaque constants, so that no proof can see
what they are. -/

namespace Sys2Proof.Config

/-- MEM_SIZE: bytes of memory, addresses 0 to 4095 (R6, R50). -/
abbrev memSize : Nat := 4096

/-- FONT_BYTES: the font table fills addresses [0,80) (R6, R27). -/
abbrev fontBytes : Nat := 80

/-- GLYPH_BYTES: bytes of one font glyph (R6, R27). -/
abbrev glyphBytes : Nat := 5

/-- STACK_CAP: entries of the call stack (R6, R28). -/
abbrev stackCap : Nat := 16

/-- ROM_BASE, PC_RESET and PC_MIN: where a ROM is loaded, where it starts, and the lowest legal fetch address (R6, R51). -/
abbrev romBase : Nat := 0x200

/-- ROM_MAX: the largest ROM that loads (R6). -/
abbrev romMax : Nat := 3584

/-- An unknown natural number: one less than OPCODES_PER_FRAME. -/
opaque extraOpcodesPerFrame : Nat

/-- OPCODES_PER_FRAME, the cycles of one tick: an OPEN parameter, "integer, at least 1" (R7, decision D18). Nothing but its
being positive can be proved. It is what `State.reset` puts in the field `opcodesPerFrame`. -/
def opcodesPerFrame : Nat := extraOpcodesPerFrame + 1

/-- The keypad snapshot the host supplies to the tick with this number: a free input, any 16-bit value (R231, U16). It is
used when the state's list `keyInputs` holds no snapshot for that tick. -/
opaque keySnapshot : Nat → KeySet

/-- The byte the host supplies to the execution of CXNN with this number: a free input, any value (R143, R233, D19, U5).
It is used when the state's list `randInputs` is empty. -/
opaque randomByte : Nat → Byte

/-- One glyph of the customary font: five sprite rows, top row first (R27). -/
abbrev Glyph := List Byte

/-- Glyphs 0 to 7 of the default FONT (R27). -/
def glyphsLow : List Glyph :=
  [[0xF0, 0x90, 0x90, 0x90, 0xF0], [0x20, 0x60, 0x20, 0x20, 0x70],
   [0xF0, 0x10, 0xF0, 0x80, 0xF0], [0xF0, 0x10, 0xF0, 0x10, 0xF0],
   [0x90, 0x90, 0xF0, 0x10, 0x10], [0xF0, 0x80, 0xF0, 0x10, 0xF0],
   [0xF0, 0x80, 0xF0, 0x90, 0xF0], [0xF0, 0x10, 0x20, 0x40, 0x40]]

/-- Glyphs 8 to F of the default FONT (R27). -/
def glyphsHigh : List Glyph :=
  [[0xF0, 0x90, 0xF0, 0x90, 0xF0], [0xF0, 0x90, 0xF0, 0x10, 0xF0],
   [0xF0, 0x90, 0xF0, 0x90, 0x90], [0xE0, 0x90, 0xE0, 0x90, 0xE0],
   [0xF0, 0x80, 0x80, 0x80, 0xF0], [0xE0, 0x90, 0x90, 0x90, 0xE0],
   [0xF0, 0x80, 0xF0, 0x80, 0xF0], [0xF0, 0x80, 0xF0, 0x80, 0x80]]

/-- The default value of the parameter FONT: "the customary CHIP-8 hexadecimal font" of rule R27, which the spec marks as
coming from general knowledge (D20, log entry 2). No statement rests on these bytes. -/
def customaryFont : Vector Byte 80 := ⟨⟨(glyphsLow ++ glyphsHigh).flatten⟩, rfl⟩

end Sys2Proof.Config
end

