-- ==== Sys2Proof/Machine/State.lean ====
section
/-! DEFINITION. The state of the machine (10_state.md), the reasons a run is over, and the state after `Reset()` (R39, R250).
Every row of rule R39's table is a field; after them stand the Scheduler's place in its tick, the parameters, and the
inputs and outputs the host exchanges with the core, all as plain data. -/

namespace Sys2Proof.Machine

/-- The five execution faults (R201). -/
inductive ExecutionFault where
  /-- PC odd, below 0x200 or above 4095 at the start of a cycle (R202). -/
  | misalignedProgramCounter
  /-- The fetched word matches no row of the opcode table (R203). -/
  | unimplementedOpcode
  /-- 2NNN with 16 entries in use (R207). -/
  | stackOverflow
  /-- 00EE with no entry in use (R208). -/
  | stackUnderflow
  /-- An index-relative access past address 4095 (R209). -/
  | memoryOutOfRange
  deriving DecidableEq, Repr

/-- The Engine's STATUS (R35): whether it may run and, when not, why. -/
inductive Status where
  /-- Cycles may execute. -/
  | running
  /-- `HALTED(SelfLoopHalt, opcode, pc)`: the intentional halt of 1NNN to itself (R204). -/
  | halted (opcode pc : Word)
  /-- `FAULTED(kind, opcode, pc)`: an execution fault with its diagnostic context (R205, R206). -/
  | faulted (kind : ExecutionFault) (opcode : Option Word) (pc : Word)
  deriving DecidableEq, Repr

/-- Where the Scheduler stands in its tick (R225). The spec's loop variable `n` is the argument of `execute`. -/
inductive Phase where
  /-- Between two ticks, and after reset. -/
  | between
  /-- In the execute phase, with `n` cycles of this tick completed; the next thing to happen is a cycle. -/
  | execute (n : Nat)
  /-- The execute phase is over; the present+tick phase comes next. -/
  | finish
  deriving DecidableEq, Repr

/-- The 4096-byte memory (R27, R50). `font` is the parameter FONT, which no step changes; `cells` lists, addresses strictly
rising, the bytes that differ from what reset puts there (`Memory.unlisted`). The canonical form is `Memory.wf`. -/
structure Memory where
  font : Vector Byte 80
  cells : List Host.Cell
  deriving DecidableEq, Repr

/-- The machine's state. -/
structure State where
  /-- `V0` to `VF` (R20). -/
  v : Vector Byte 16
  /-- The index register `I` (R24). -/
  i : Word
  /-- The program counter `PC` (R25). -/
  pc : Word
  /-- `MEM` (R27). -/
  mem : Memory
  /-- `STACK[0..15]` (R28, D22). -/
  stack : Vector Word 16
  /-- `SP`, the number of entries in use, 0 to 16 (R28). -/
  sp : Fin 17
  /-- `FB[0..255]` (R29). -/
  fb : Framebuffer
  /-- `DIRTY` (R32). -/
  dirty : Bool
  /-- `DT` (R33). -/
  dt : Byte
  /-- `ST` (R33). -/
  st : Byte
  /-- `KP`, the keypad latch (R34). -/
  kp : KeySet
  /-- `STATUS` (R35). -/
  status : Status
  /-- `LOADED`, the ROM byte count (R36). -/
  loaded : Nat
  /-- The Scheduler's place in its tick (R225): the model's own field. -/
  phase : Phase
  /-- The parameter OPCODES_PER_FRAME (R7, D18), which no step changes: the model's own field. -/
  opcodesPerFrame : Nat
  /-- Snapshots the host has already given for the ticks to come, next first (R231): the model's own field. -/
  keyInputs : List KeySet
  /-- How many ticks have begun: it numbers the free snapshot of a tick for which `keyInputs` has none. The model's own
  field. -/
  ticks : Nat
  /-- Bytes the host has already given for the CXNN to come, next first (R233): the model's own field. -/
  randInputs : List Byte
  /-- How many CXNN have executed: it numbers the free byte of a CXNN for which `randInputs` has none. The model's own
  field. -/
  draws : Nat
  /-- The bitmaps handed to the display, newest first (R232): the core's output, the model's own field. -/
  presents : List Framebuffer
  deriving DecidableEq, Repr

/-- Why a run is over. -/
inductive Fault where
  /-- The run ended by the intentional halt (R204, R229, R234). Raised by `step` alone, between two ticks, when STATUS is
  `HALTED`: the Scheduler has stopped iterating and hands the reason to its caller. Safe: the spec says no further tick
  runs. -/
  | halted (opcode pc : Word)
  /-- The run ended by an execution fault (R205, R229, R234). Raised by `step` alone, between two ticks, when STATUS is
  `FAULTED`. Safe: the spec says no further tick runs. -/
  | faulted (kind : ExecutionFault) (opcode : Option Word) (pc : Word)
  deriving DecidableEq, Repr

/-- Why a step has no meaning. -/
inductive Refusal where
  /-- An instruction with no meaning yet, named as the opcode table names it. Raised by no arm of `exec`: every instruction
  of the table has its meaning. Safe. -/
  | notModelled (mnemonic : String)
  deriving DecidableEq, Repr

/-- The state after `Reset()` (R39, R250) of a machine with these parameters. DIRTY, KP, STATUS, LOADED are decision D21. -/
def State.resetWith (font : Vector Byte 80) (opcodesPerFrame : Nat) : State where
  v := Vector.replicate 16 0
  i := 0
  pc := 0x200
  mem := { font := font, cells := [] }
  stack := Vector.replicate 16 0
  sp := 0
  fb := Vector.replicate 256 0
  dirty := false
  dt := 0
  st := 0
  kp := 0
  status := .running
  loaded := 0
  phase := .between
  opcodesPerFrame := opcodesPerFrame
  keyInputs := []
  ticks := 0
  randInputs := []
  draws := 0
  presents := []

/-- The machine right after reset: FONT is the spec's default (R27, log entry 2), OPCODES_PER_FRAME is unknown (R7, log
entry 3), and the host has supplied nothing yet. -/
def State.reset : State := State.resetWith Config.customaryFont Config.opcodesPerFrame

end Sys2Proof.Machine
end

