-- ==== Sys2Proof/Machine/Ops.lean ====
section
/-! DEFINITION. The named operations over memory, registers, call stack, framebuffer and host inputs that the meanings share,
and taking a fault (R205) and the halt (R204). There is no return from a fault: "all ExecutionFaults are fatal to the
Engine" (R211); only `Reset()` leaves a terminal status. -/

namespace Sys2Proof.Machine

/-! ### Memory (20_memory.md) -/

/-- What an address reads as when nothing is listed for it: the reset contents, FONT in [0,80) and 0 above (R27, R39). -/
def Memory.unlisted (m : Memory) (a : Nat) : Byte := if h : a < 80 then m.font[a] else 0

/-- The byte listed for an address. -/
def lookupCell (a : Nat) : List Host.Cell → Option Byte
  | [] => none
  | (c, b) :: rest => if c = a then some b else lookupCell a rest

/-- List a byte at its place in a rising list, replacing the one listed there. -/
def insertCell (a : Nat) (b : Byte) : List Host.Cell → List Host.Cell
  | [] => [(a, b)]
  | (c, d) :: rest =>
    if a < c then (a, b) :: (c, d) :: rest
    else if a = c then (a, b) :: rest
    else (c, d) :: insertCell a b rest

/-- List nothing for an address. -/
def eraseCell (a : Nat) : List Host.Cell → List Host.Cell
  | [] => []
  | (c, d) :: rest => if c = a then eraseCell a rest else (c, d) :: eraseCell a rest

/-- `MEM[a]` (R57). Only addresses 0 to 4095 exist, and every caller has checked. -/
def Memory.read (m : Memory) (a : Nat) : Byte := (lookupCell a m.cells).getD (m.unlisted a)

/-- `MEM[a] <- b` (R57), in canonical form: writing what an unlisted address reads as unlists it. An address above 4095 is
no part of memory and nothing is written there; every caller has checked. -/
def Memory.write (m : Memory) (a : Nat) (b : Byte) : Memory :=
  if a < Config.memSize then
    { m with cells := if b = m.unlisted a then eraseCell a m.cells else insertCell a b m.cells }
  else m

/-- The canonical form: addresses strictly rising, each in memory, no entry equal to what an unlisted address reads as. -/
def Memory.wf (m : Memory) : Bool :=
  decide (m.cells.Pairwise (fun c d => c.1 < d.1)) &&
    m.cells.all (fun c => decide (c.1 < Config.memSize) && c.2 != m.unlisted c.1)

/-- One byte after another at ascending addresses (R53, R59). -/
def Memory.writeBytes (m : Memory) (a : Nat) : List Byte → Memory
  | [] => m
  | b :: bs => (m.write a b).writeBytes (a + 1) bs

/-- `count` bytes at ascending addresses from `a` (R53, R59). -/
def Memory.readBytes (m : Memory) (a : Nat) : Nat → List Byte
  | 0 => []
  | count + 1 => m.read a :: m.readBytes (a + 1) count

/-- The word at `a`, most significant byte at the lower address (R52). -/
def Memory.readWord (m : Memory) (a : Nat) : Word := wordOfBytes (m.read a) (m.read (a + 1))

/-- The word stored at `a`, most significant byte at the lower address (R52). -/
def Memory.writeWord (m : Memory) (a : Nat) (w : Word) : Memory := m.writeBytes a [highByte w, lowByte w]

/-! ### One field at a time -/

/-- `V[r]` (R12, R20). -/
def State.getV (s : State) (r : Reg) : Byte := s.v[r.val]

/-- `V[r] <- b` (R12, R21). -/
def State.setV (s : State) (r : Reg) (b : Byte) : State := { s with v := s.v.set r.val b }

/-- `VF <- 1 or 0`: the flag, written last (R22, R23). -/
def State.setVF (s : State) (b : Bool) : State := s.setV 15 (flagByte b)

/-- `I <- w`, kept whole in its 16 bits (R24). -/
def State.setI (s : State) (w : Word) : State := { s with i := w }

/-- `PC <- w`: no value is checked when it is written (R26, R114). -/
def State.setPc (s : State) (w : Word) : State := { s with pc := w }

/-- Memory replaced by what a store leaves. -/
def State.setMem (s : State) (m : Memory) : State := { s with mem := m }

/-- The framebuffer replaced by what 00E0 or DXYN leaves, and `DIRTY <- 1` (R32, R170, R172). -/
def State.setScreen (s : State) (fb : Framebuffer) : State := { s with fb := fb, dirty := true }

/-- `DT <- b` (R190). -/
def State.setDt (s : State) (b : Byte) : State := { s with dt := b }

/-- `ST <- b` (R191). -/
def State.setSt (s : State) (b : Byte) : State := { s with st := b }

/-- `STATUS <- x` (R35). -/
def State.setStatus (s : State) (x : Status) : State := { s with status := x }

/-! ### The program counter -/

/-- `PC <- PC + 2` (R25). -/
def State.advance (s : State) : State := s.setPc (s.pc + 2)

/-- "skip next" means PC advances by 4 instead of 2 (R124). -/
def State.skipIf (s : State) (c : Bool) : State := s.setPc (if c then s.pc + 4 else s.pc + 2)

/-- PC even and in [0x200,4096): a legal fetch address (R26, R55). -/
def legalPc (pc : Word) : Bool := pc.toNat % 2 == 0 && decide (Config.romBase ≤ pc.toNat) && decide (pc.toNat < Config.memSize)

/-- `opcode = (MEM[PC] << 8) | MEM[PC + 1]` (R52, R200). -/
def State.fetchWord (s : State) : Word := s.mem.readWord s.pc.toNat

/-! ### Faults and the halt (60_exceptions.md) -/

/-- Taking a fault: "sets STATUS <- FAULTED(F, opcode, pc)" and "Nothing else changes" (R205). The PC recorded is the PC of
the faulting instruction, which PC still holds. -/
def State.raise (s : State) (kind : ExecutionFault) (opcode : Option Word) : State :=
  s.setStatus (.faulted kind opcode s.pc)

/-- The intentional halt: "STATUS <- HALTED(SelfLoopHalt, opcode, PC), no other state changes" (R204). -/
def State.halt (s : State) (opcode : Word) : State := s.setStatus (.halted opcode s.pc)

/-- The bounds check of index-relative accesses fails: "if cnt > 0 and I + cnt - 1 > 4095", on the whole of I, not masked
and not wrapped (R56, decisions D1, D2). -/
def State.outOfRange (s : State) (cnt : Nat) : Bool := decide (0 < cnt ∧ s.i.toNat + cnt - 1 > 4095)

/-! ### The call stack (R28) -/

/-- Push: `STACK[SP] <- addr; SP <- SP + 1`, allowed only when `SP < 16`. -/
def State.push (s : State) (a : Word) : Option State :=
  if h : s.sp.val < 16 then some { s with stack := s.stack.set s.sp.val a, sp := ⟨s.sp.val + 1, by omega⟩ } else none

/-- Pop: `SP <- SP - 1; result is STACK[SP]`, allowed only when `SP > 0`; the vacated entry keeps its bits. -/
def State.pop (s : State) : Option (Word × State) :=
  if h : 0 < s.sp.val then
    some (s.stack[s.sp.val - 1], { s with sp := ⟨s.sp.val - 1, by omega⟩ })
  else none

/-! ### Register blocks (43_index_memory.md) -/

/-- The bytes `V[0]` to `V[X]`, ascending (R154). -/
def State.registerBlock (s : State) (x : Reg) : List Byte := s.v.toList.take (x.val + 1)

/-- `V[k] <- MEM[base + k]` for k = 0 to X; the registers above VX keep their values (R155). -/
def State.loadBlock (s : State) (base : Nat) (x : Reg) : State :=
  { s with v := s.v.mapIdx (fun k old => if k ≤ x.val then s.mem.read (base + k) else old) }

/-! ### The framebuffer (44_display.md) -/

/-- The framebuffer while a sprite is drawn, and whether a pixel was turned off so far (R172). -/
structure Drawing where
  fb : Framebuffer
  coll : Bool
  deriving DecidableEq, Repr

/-- Byte index `8*row + column`, with `mod 32` on the row and `mod 8` on the column (R65). -/
def fbIndex (row col : Nat) : Fin 256 := ⟨8 * (row % 32) + col % 8, by omega⟩

/-- `XorByte(b, m)` (R172, R175). -/
def Drawing.xorByte (d : Drawing) (b : Fin 256) (m : Byte) : Drawing :=
  { fb := d.fb.set b.val (d.fb[b.val] ^^^ m), coll := d.coll || collides d.fb[b.val] m }

/-- One sprite row `p` on framebuffer row `row` with its leftmost pixel at column `x` (R172 to R174). -/
def Drawing.row (d : Drawing) (x row : Nat) (p : Byte) : Drawing :=
  if x % 8 = 0 then d.xorByte (fbIndex row (x / 8)) p
  else (d.xorByte (fbIndex row (x / 8)) (leftPart x p)).xorByte (fbIndex row (x / 8 + 1)) (rightPart x p)

/-- The rows of a sprite from framebuffer row `row` on, ascending; rows wrap (R172, R174). -/
def Drawing.rows (d : Drawing) (x row : Nat) : List Byte → Drawing
  | [] => d
  | p :: ps => (d.row x row p).rows x (row + 1) ps

/-- Draw the N bytes at I with the origin at (`x`, `y`); nothing is read or drawn when the origin is outside the grid
(R172, R176). -/
def State.drawSprite (s : State) (x y : Byte) (n : Nat) : Drawing :=
  if x.toNat < 64 ∧ y.toNat < 32 then
    Drawing.rows { fb := s.fb, coll := false } x.toNat y.toNat (s.mem.readBytes s.i.toNat n)
  else { fb := s.fb, coll := false }

/-- `pixel(x,y) = (FB[y*8 + x/8] >> (7 - (x mod 8))) & 1` (R30), for x in 0..63 and y in 0..31. -/
def pixel (fb : Framebuffer) (x y : Nat) : Bool := fb[fbIndex y (x / 8)].getLsbD (7 - x % 8)

/-! ### Host inputs -/

/-- `draw_byte()`: the byte the host supplies to this execution of CXNN (R143, R233): the next one it has already given, or
else a free one. -/
def State.drawByte (s : State) : Byte := s.randInputs.head?.getD (Config.randomByte s.draws)

/-- The byte has been used. -/
def State.afterDraw (s : State) : State := { s with randInputs := s.randInputs.tail, draws := s.draws + 1 }

/-- The snapshot the host supplies to the tick that begins now (R231): the next one it has already given, or else a free
one. -/
def State.nextKeys (s : State) : KeySet := s.keyInputs.head?.getD (Config.keySnapshot s.ticks)

end Sys2Proof.Machine
end

