-- ==== Sys2Proof/Machine/Loader.lean ====
section
/-! DEFINITION. The boot interface (70_reset_and_hazards.md rules R255 to R257): `LoadRom` and the order reset, load, run.
The host performs it before the first tick; it is no part of `step`. -/

namespace Sys2Proof.Machine

/-- Why a load fails (R256). -/
inductive LoadError where
  | emptyRom
  | romTooLarge
  deriving DecidableEq, Repr

/-- The bytes that fit: at most 3584 (R255). -/
def romBytes (stream : List Byte) : List Byte := stream.take Config.romMax

/-- The state `LoadRom(stream)` leaves, whatever it returns: bytes from 0x200 up, and `LOADED` (R255, decision D25). -/
def State.loadRom (s : State) (stream : List Byte) : State :=
  { s with
    mem := s.mem.writeBytes Config.romBase (romBytes stream), loaded := (romBytes stream).length }

/-- What `LoadRom(stream)` returns: none when it returns ok (R255, R256). -/
def loadError (stream : List Byte) : Option LoadError :=
  if stream.length = 0 then some .emptyRom
  else if stream.length > Config.romMax then some .romTooLarge
  else none

/-- `Reset()`, then `LoadRom` once: the state in which the first tick begins, or the load error that "prevents the Scheduler
from ever starting" (R230, R256, R257). -/
def boot (font : Vector Byte 80) (opcodesPerFrame : Nat) (stream : List Byte) : Except LoadError State :=
  match loadError stream with
  | some e => .error e
  | none => .ok ((State.resetWith font opcodesPerFrame).loadRom stream)

/-- A legal fetch address for the host's `withFetchWord`: PC where it is legal, and the entry point where it is not. -/
def fetchableAt (pc : Word) : Word := if legalPc pc then pc else 0x200

/-- The word placed where the next cycle fetches, and the Scheduler placed before a cycle, with STATUS RUNNING. -/
def State.placeWord (s : State) (w : Word) : State :=
  { s with
    pc := fetchableAt s.pc, mem := s.mem.writeWord (fetchableAt s.pc).toNat w, status := .running, phase := .execute 0 }

end Sys2Proof.Machine
end

