-- ==== Sys2Proof/Machine/Alu.lean ====
section
/-! DEFINITION. Register load, logic, arithmetic and random (42_alu.md). Operands are read before anything is written, the
result is written, and the flag is written last (R23, decision D5). -/

namespace Sys2Proof.Machine

/-- LD_IMM: `V[X] <- NN` (R130). -/
def execLdImm (x : Reg) (nn : Byte) (s : State) : Host.Outcome State Fault Refusal :=
  .next (s.setV x nn).advance

/-- ADD_IMM: `V[X] <- (V[X] + NN) mod 256`, no flag (R131). -/
def execAddImm (x : Reg) (nn : Byte) (s : State) : Host.Outcome State Fault Refusal :=
  .next (s.setV x (s.getV x + nn)).advance

/-- LD_REG: `V[X] <- V[Y]` (R132). -/
def execLdReg (x y : Reg) (s : State) : Host.Outcome State Fault Refusal :=
  .next (s.setV x (s.getV y)).advance

/-- OR: `V[X] <- V[X] | V[Y]`, no flag (R133). -/
def execOrReg (x y : Reg) (s : State) : Host.Outcome State Fault Refusal :=
  .next (s.setV x (s.getV x ||| s.getV y)).advance

/-- AND: `V[X] <- V[X] & V[Y]`, no flag (R134). -/
def execAndReg (x y : Reg) (s : State) : Host.Outcome State Fault Refusal :=
  .next (s.setV x (s.getV x &&& s.getV y)).advance

/-- XOR: `V[X] <- V[X] ^ V[Y]`, no flag (R135). -/
def execXorReg (x y : Reg) (s : State) : Host.Outcome State Fault Refusal :=
  .next (s.setV x (s.getV x ^^^ s.getV y)).advance

/-- ADD_REG: `V[X] <- (a + b) mod 256`, then VF the carry (R136). -/
def execAddReg (x y : Reg) (s : State) : Host.Outcome State Fault Refusal :=
  .next ((s.setV x (s.getV x + s.getV y)).setVF (carryFlag (s.getV x) (s.getV y))).advance

/-- SUB: `V[X] <- (a - b) mod 256`, then VF 1 when there is no borrow (R137). -/
def execSub (x y : Reg) (s : State) : Host.Outcome State Fault Refusal :=
  .next ((s.setV x (s.getV x - s.getV y)).setVF (noBorrowFlag (s.getV x) (s.getV y))).advance

/-- SHR: `V[X] <- a >> 1`, then VF the bit shifted out; Y is ignored (R138). -/
def execShr (x _y : Reg) (s : State) : Host.Outcome State Fault Refusal :=
  .next ((s.setV x (s.getV x >>> 1)).setVF (shiftedOutRight (s.getV x))).advance

/-- SUBN: `V[X] <- (b - a) mod 256`, then VF 1 when there is no borrow (R139, decision D6). -/
def execSubn (x y : Reg) (s : State) : Host.Outcome State Fault Refusal :=
  .next ((s.setV x (s.getV y - s.getV x)).setVF (noBorrowFlag (s.getV y) (s.getV x))).advance

/-- SHL: `V[X] <- (a << 1) mod 256`, then VF the bit shifted out; Y is ignored (R140). -/
def execShl (x _y : Reg) (s : State) : Host.Outcome State Fault Refusal :=
  .next ((s.setV x (s.getV x <<< 1)).setVF (shiftedOutLeft (s.getV x))).advance

/-- RND: `V[X] <- draw_byte() & NN`, with the byte the host supplies (R143, decision D19). -/
def execRnd (x : Reg) (nn : Byte) (s : State) : Host.Outcome State Fault Refusal :=
  .next (s.afterDraw.setV x (s.drawByte &&& nn)).advance

end Sys2Proof.Machine
end

