-- ==== Sys2Proof/Machine/Display.lean ====
section
/-! DEFINITION. The framebuffer writers (44_display.md): 00E0 and DXYN. -/

namespace Sys2Proof.Machine

/-- CLS: every framebuffer byte 0, `DIRTY <- 1` (R170). -/
def execCls (s : State) : Host.Outcome State Fault Refusal :=
  .next (s.setScreen (Vector.replicate 256 0)).advance

/-- DRW: the range check first (decision D11), then the sprite drawn by exclusive or, `VF <- coll`, `DIRTY <- 1` (R172).
`V[X]` and `V[Y]` are read before VF is written (R177); with nothing drawn VF is 0 and DIRTY 1 (R176, decisions D9, D10). -/
def execDrw (x y : Reg) (n : Nibble) (s : State) : Host.Outcome State Fault Refusal :=
  if s.outOfRange n.toNat then .next (s.raise .memoryOutOfRange (some (encode (.drw x y n))))
  else
    .next ((s.setScreen (s.drawSprite (s.getV x) (s.getV y) n.toNat).fb).setVF
      (s.drawSprite (s.getV x) (s.getV y) n.toNat).coll).advance

end Sys2Proof.Machine
end

