-- ==== Sys2Proof/Machine/Flow.lean ====
section
/-! DEFINITION. Control transfer (40_flow.md): 00EE, 1NNN, 2NNN, BNNN. No target is checked when it is written (R114). -/

namespace Sys2Proof.Machine

/-- RET: `PC` becomes the popped value exactly; `StackUnderflow` when the stack is empty (R110). -/
def execRet (s : State) : Host.Outcome State Fault Refusal :=
  match s.pop with
  | some (a, t) => .next (t.setPc a)
  | none => .next (s.raise .stackUnderflow (some (encode .ret)))

/-- JP: "if target == current pc, treat as an intentional halt"; else `PC <- NNN` (R111). -/
def execJp (nnn : Addr) (s : State) : Host.Outcome State Fault Refusal :=
  if zext16 nnn = s.pc then .next (s.halt (encode (.jp nnn))) else .next (s.setPc (zext16 nnn))

/-- CALL: push `PC + 2`, then `PC <- NNN`; `StackOverflow` when 16 entries are in use (R112). -/
def execCall (nnn : Addr) (s : State) : Host.Outcome State Fault Refusal :=
  match s.push (s.pc + 2) with
  | some t => .next (t.setPc (zext16 nnn))
  | none => .next (s.raise .stackOverflow (some (encode (.call nnn))))

/-- JP_V0: `PC <- V[0] + NNN`, not masked, with no self-loop test (R113, decision D34). -/
def execJpV0 (nnn : Addr) (s : State) : Host.Outcome State Fault Refusal :=
  .next (s.setPc (zext16 (s.getV 0) + zext16 nnn))

end Sys2Proof.Machine
end

