-- ==== Sys2Proof/Machine/Index.lean ====
section
/-! DEFINITION. Index register and memory transfer (43_index_memory.md). The whole byte range is checked before the first
access (R56), and no access changes I (R156, decision D33). -/

namespace Sys2Proof.Machine

/-- LD_I: `I <- NNN` (R150). -/
def execLdI (nnn : Addr) (s : State) : Host.Outcome State Fault Refusal :=
  .next (s.setI (zext16 nnn)).advance

/-- ADD_I: `I <- (I + V[X]) mod 65536`, no flag (R151, decision D2). -/
def execAddI (x : Reg) (s : State) : Host.Outcome State Fault Refusal :=
  .next (s.setI (s.i + zext16 (s.getV x))).advance

/-- LD_F: `I <- V[X] * 5` (R152). -/
def execLdF (x : Reg) (s : State) : Host.Outcome State Fault Refusal :=
  .next (s.setI (glyphAddress (s.getV x))).advance

/-- LD_B: hundreds, tens and ones of `V[X]` at I, I + 1, I + 2 (R153). -/
def execLdB (x : Reg) (s : State) : Host.Outcome State Fault Refusal :=
  if s.outOfRange 3 then .next (s.raise .memoryOutOfRange (some (encode (.ldB x))))
  else .next (s.setMem (s.mem.writeBytes s.i.toNat (decimalDigits (s.getV x)))).advance

/-- ST_REGS: `V[0]` to `V[X]` at I to I + X (R154). -/
def execStRegs (x : Reg) (s : State) : Host.Outcome State Fault Refusal :=
  if s.outOfRange (x.val + 1) then .next (s.raise .memoryOutOfRange (some (encode (.stRegs x))))
  else .next (s.setMem (s.mem.writeBytes s.i.toNat (s.registerBlock x))).advance

/-- LD_REGS: `V[0]` to `V[X]` from I to I + X (R155). -/
def execLdRegs (x : Reg) (s : State) : Host.Outcome State Fault Refusal :=
  if s.outOfRange (x.val + 1) then .next (s.raise .memoryOutOfRange (some (encode (.ldRegs x))))
  else .next (s.loadBlock s.i.toNat x).advance

end Sys2Proof.Machine
end

