-- ==== Sys2Proof/Machine/KeypadTimer.lean ====
section
/-! DEFINITION. Keypad and timer instructions (45_keypad_timer.md): EX9E, EXA1, FX07, FX0A, FX15, FX18. -/

namespace Sys2Proof.Machine

/-- SKP: skip when the key numbered by `V[X]` is pressed (R185). -/
def execSkp (x : Reg) (s : State) : Host.Outcome State Fault Refusal :=
  .next (s.skipIf (keyPressed s.kp (keyNumber (s.getV x))))

/-- SKNP: skip when the key numbered by `V[X]` is not pressed (R186). -/
def execSknp (x : Reg) (s : State) : Host.Outcome State Fault Refusal :=
  .next (s.skipIf (!keyPressed s.kp (keyNumber (s.getV x))))

/-- LD_VX_DT: `V[X] <- DT` (R189). -/
def execLdVxDt (x : Reg) (s : State) : Host.Outcome State Fault Refusal :=
  .next (s.setV x s.dt).advance

/-- LD_VX_K: with no key pressed nothing is written and PC stays; else `V[X]` is the lowest pressed key's number (R188,
decision D14). That the cycle then answers AWAITING_INPUT is `cycleResult`. -/
def execLdVxK (x : Reg) (s : State) : Host.Outcome State Fault Refusal :=
  match lowestKey s.kp with
  | none => .next s
  | some k => .next (s.setV x (BitVec.ofNat 8 k)).advance

/-- LD_DT_VX: `DT <- V[X]` (R190). -/
def execLdDtVx (x : Reg) (s : State) : Host.Outcome State Fault Refusal :=
  .next (s.setDt (s.getV x)).advance

/-- LD_ST_VX: `ST <- V[X]` (R191). -/
def execLdStVx (x : Reg) (s : State) : Host.Outcome State Fault Refusal :=
  .next (s.setSt (s.getV x)).advance

end Sys2Proof.Machine
end

