-- ==== Sys2Proof/Machine/Cycle.lean ====
section
/-! DEFINITION. The Engine's one step, `Cycle()` (60_exceptions.md rule R200). -/

namespace Sys2Proof.Machine

/-- What a cycle returns: `CONTINUE`, `AWAITING_INPUT`, or a terminal status, which STATUS then holds (R200). -/
inductive CycleResult where
  | proceed
  | awaitingInput
  | terminal
  deriving DecidableEq, Repr

/-- The instruction is an FX0A that finds no key pressed (R188). "no awaiting bit is stored, because the result is
recomputed from PC, MEM and KP on every attempt". -/
def awaitsKey (i : Instr) (s : State) : Bool :=
  match i with
  | .ldVxK _ => (lowestKey s.kp).isNone
  | _ => false

/-- The result of a cycle that executed `i` in `s` and left `t` (R200). -/
def cycleResult (i : Instr) (s t : State) : CycleResult :=
  match t.status with
  | .running => if awaitsKey i s then .awaitingInput else .proceed
  | .halted _ _ => .terminal
  | .faulted _ _ _ => .terminal

/-- Execute the decoded instruction, or raise `UnimplementedOpcode` with the word fetched (R200, R203). -/
def executeDecoded (w : Word) (s : State) : Host.Outcome (State × CycleResult) Fault Refusal :=
  match decodeWord w with
  | .error _ => .next (s.raise .unimplementedOpcode (some w), .terminal)
  | .ok i =>
    match exec i s with
    | .next t => .next (t, cycleResult i s t)
    | .fault f => .fault f
    | .refused r => .refused r

/-- `Cycle()`: nothing when STATUS is not RUNNING (R211); the PC test (R202); fetch, decode, execute (R200, R210). -/
def cycle (s : State) : Host.Outcome (State × CycleResult) Fault Refusal :=
  match s.status with
  | .running =>
    if legalPc s.pc then executeDecoded s.fetchWord s
    else .next (s.raise .misalignedProgramCounter none, .terminal)
  | .halted _ _ => .next (s, .terminal)
  | .faulted _ _ _ => .next (s, .terminal)

end Sys2Proof.Machine
end

