-- ==== Sys2Proof/Machine/Scheduler.lean ====
section
/-! DEFINITION. The frame scheduler and the timers (60_exceptions.md rules R220 to R230): the parts of a tick that `step`
takes one at a time, and `Tick` as one operation, which those steps refine. The end-of-frame sleep changes no state (R228). -/

namespace Sys2Proof.Machine

/-- "decrements ... by 1 if currently > 0; never decrements below 0" (R220). -/
def countDown (b : Byte) : Byte := if b = 0 then 0 else b - 1

/-- `TimersTick()` (R220). -/
def State.timersTick (s : State) : State := { s with dt := countDown s.dt, st := countDown s.st }

/-- `if DIRTY = 1 then Present(FB); DIRTY <- 0` (R225, R232). -/
def State.present (s : State) : State :=
  if s.dirty then { s with presents := s.fb :: s.presents, dirty := false } else s

/-- The start of a tick: `KP <- keys`, `DIRTY <- 0`, `n = 0` (R225, decision D16). -/
def beginTick (s : State) : State :=
  { s with
    kp := s.nextKeys, keyInputs := s.keyInputs.tail, ticks := s.ticks + 1, dirty := false, phase := .execute 0 }

/-- The present+tick phase (R225). It runs once more in the tick whose cycle was terminal (R229, decision D17). -/
def endTick (s : State) : State := { s.present.timersTick with phase := .between }

/-- Where the execute phase stands after its cycle number `n` answered `r`: it goes on after a `CONTINUE` while fewer than
OPCODES_PER_FRAME have completed, and is over after anything else (R225 to R227). -/
def phaseAfter (n opcodesPerFrame : Nat) (r : CycleResult) : Phase :=
  match r with
  | .proceed => if n + 1 < opcodesPerFrame then .execute (n + 1) else .finish
  | .awaitingInput => .finish
  | .terminal => .finish

/-- One cycle of the execute phase and the Scheduler's count after it (R225). -/
def runCycle (n : Nat) (s : State) : Host.Outcome State Fault Refusal :=
  match cycle s with
  | .next (t, r) => .next { t with phase := phaseAfter n t.opcodesPerFrame r }
  | .fault f => .fault f
  | .refused r => .refused r

/-- Between two ticks: the next tick begins while STATUS is RUNNING; else the Scheduler "stops iterating and reports the
terminal reason to its caller" (R229, R234). -/
def startTick (s : State) : Host.Outcome State Fault Refusal :=
  match s.status with
  | .running => .next (beginTick s)
  | .halted opcode pc => .fault (.halted opcode pc)
  | .faulted kind opcode pc => .fault (.faulted kind opcode pc)

/-- The execute phase with `slots` opcode slots left: the `while` loop of rule R225. -/
def executePhase : Nat → State → Host.Outcome State Fault Refusal
  | 0, s => .next s
  | slots + 1, s =>
    match cycle s with
    | .next (t, .proceed) => executePhase slots t
    | .next (t, .awaitingInput) => .next t
    | .next (t, .terminal) => .next t
    | .fault f => .fault f
    | .refused r => .refused r

/-- `Tick(keys)` whole (R225); its precondition is STATUS = RUNNING. -/
def tick (s : State) : Host.Outcome State Fault Refusal :=
  match executePhase s.opcodesPerFrame (beginTick s) with
  | .next t => .next (endTick t)
  | .fault f => .fault f
  | .refused r => .refused r

end Sys2Proof.Machine
end

