-- ==== Sys2Proof/Machine/Step.lean ====
section
/-! DEFINITION. One step of the machine: the Scheduler's next action (60_exceptions.md rule R225), which in the execute phase
is one `Cycle()` of the Engine (R200). -/

namespace Sys2Proof.Machine

/-- Between ticks: begin the next tick, or stop for good. In the execute phase: one cycle. Then the present+tick phase. -/
def step (s : State) : Host.Outcome State Fault Refusal :=
  match s.phase with
  | .between => startTick s
  | .execute n => runCycle n s
  | .finish => .next (endTick s)

/-- The state in which the very next step fetches and runs the word the host numbers `w`: the word at PC, the Scheduler in
its execute phase, STATUS RUNNING, and PC moved to the entry point only when it is no legal fetch address (log entry 1). -/
def State.withFetchWord (s : State) (nbits w : Nat) : State := s.placeWord (tableWord nbits w)

end Sys2Proof.Machine
end

