-- ==== Sys2Proof/Safety.lean ====
section
/-! DEFINITION. The vocabulary claims are stated in: how a run ended (R204), the parts of the state an instruction may leave
unchanged (R40), the invariant of reachable states (R41), the pixels of a sprite (R172 to R174). -/

namespace Sys2Proof.Machine

/-! ### How a run stands -/

/-- "A model's run ended well predicate is STATUS = HALTED(SelfLoopHalt, ...)" (R204). -/
def EndedWell (s : State) : Prop := ∃ opcode pc, s.status = .halted opcode pc

/-- "FAULTED(...) is gone wrong" (R204). -/
def GoneWrong (s : State) : Prop := ∃ kind opcode pc, s.status = .faulted kind opcode pc

/-! ### Frames -/

/-- The parts of the state beside PC, as rule R40's table groups them; `host` is what no instruction writes: the keypad latch,
LOADED, the Scheduler's place, the parameters, the keypad inputs and the display's output. -/
inductive Part where
  | registers | index | memory | stack | screen | delayTimer | soundTimer | randomInput | status | host
  deriving DecidableEq, Repr

/-- The part holds in `t` what it held in `s`. -/
def Part.same (s t : State) : Part → Prop
  | .registers => ∀ r : Reg, t.getV r = s.getV r
  | .index => t.i = s.i
  | .memory => ∀ a : Nat, t.mem.read a = s.mem.read a
  | .stack => t.sp = s.sp ∧ ∀ k : Fin 16, t.stack[k] = s.stack[k]
  | .screen => t.fb = s.fb ∧ t.dirty = s.dirty
  | .delayTimer => t.dt = s.dt
  | .soundTimer => t.st = s.st
  | .randomInput => t.randInputs = s.randInputs ∧ t.draws = s.draws
  | .status => t.status = s.status
  | .host =>
    t.kp = s.kp ∧ t.loaded = s.loaded ∧ t.phase = s.phase ∧ t.mem.font = s.mem.font ∧
      t.opcodesPerFrame = s.opcodesPerFrame ∧ t.keyInputs = s.keyInputs ∧ t.ticks = s.ticks ∧ t.presents = s.presents

/-- Everything but PC and the named parts is unchanged. -/
def KeepsAllBut (parts : List Part) (s t : State) : Prop := ∀ p : Part, p ∉ parts → p.same s t

/-- Every register but the named ones is unchanged. -/
def KeepsRegistersBut (rs : List Reg) (s t : State) : Prop := ∀ r : Reg, r ∉ rs → t.getV r = s.getV r

/-- Executing `i` in `s` takes this fault, with the instruction's own word and PC recorded, and changes nothing else: PC, too,
stays (R205, R206). -/
def TakesFault (kind : ExecutionFault) (i : Instr) (s : State) : Prop :=
  ∃ t, exec i s = .next t ∧ t.status = .faulted kind (some (encode i)) s.pc ∧ t.pc = s.pc ∧ KeepsAllBut [.status] s t

/-! ### What an instruction may write (R40) -/

/-- The six instructions that define a flag (R22). -/
def definesFlag : Instr → Bool
  | .addReg _ _ | .sub _ _ | .shr _ _ | .subn _ _ | .shl _ _ | .drw _ _ _ => true
  | _ => false

/-- The register is a destination of the instruction: `V[X]`, `V[0]` to `V[X]`, or VF as the flag (R40). -/
def writesRegister (i : Instr) (r : Reg) : Bool :=
  match i with
  | .ldImm x _ | .addImm x _ | .ldReg x _ | .orReg x _ | .andReg x _ | .xorReg x _ | .rnd x _ | .ldVxDt x | .ldVxK x => r == x
  | .addReg x _ | .sub x _ | .shr x _ | .subn x _ | .shl x _ => r == x || r == 15
  | .drw _ _ _ => r == 15
  | .ldRegs x => decide (r ≤ x)
  | _ => false

/-- The parts an instruction may write, its faults and its halt included (R40). -/
def writtenParts : Instr → List Part
  | .cls => [.screen]
  | .ret | .call _ => [.stack, .status]
  | .jp _ => [.status]
  | .drw _ _ _ => [.registers, .screen, .status]
  | .rnd _ _ => [.registers, .randomInput]
  | .ldDtVx _ => [.delayTimer]
  | .ldStVx _ => [.soundTimer]
  | .ldI _ | .addI _ | .ldF _ => [.index]
  | .ldB _ | .stRegs _ => [.memory, .status]
  | .ldRegs _ => [.registers, .status]
  | .ldImm _ _ | .addImm _ _ | .ldReg _ _ | .orReg _ _ | .andReg _ _ | .xorReg _ _ | .addReg _ _ | .sub _ _ | .shr _ _
  | .subn _ _ | .shl _ _ | .ldVxDt _ | .ldVxK _ => [.registers]
  | .seImm _ _ | .sneImm _ _ | .seReg _ _ | .sneReg _ _ | .jpV0 _ | .skp _ | .sknp _ => []

/-! ### Invariants (R41) -/

/-- The reason STATUS records is that of the instruction at PC: PC is where it was, a recorded opcode is the word there, and
a fault without one is a PC that is no legal fetch address (R35, R202, R205, R206). -/
def recordFaithful (s : State) : Prop :=
  match s.status with
  | .running => True
  | .halted opcode pc => pc = s.pc ∧ legalPc pc = true ∧ opcode = s.fetchWord ∧ opcode = encode (.jp (nnnField pc))
  | .faulted kind (some opcode) pc =>
    pc = s.pc ∧ legalPc pc = true ∧ opcode = s.fetchWord ∧ kind ≠ .misalignedProgramCounter
  | .faulted kind none pc => pc = s.pc ∧ legalPc pc = false ∧ kind = .misalignedProgramCounter

/-- What every state reached from reset, by any steps and with any host inputs, meets (R41 and the rules named). -/
structure Inv (s : State) : Prop where
  /-- Memory is in its canonical form. -/
  memory : s.mem.wf = true
  /-- `PC <= 0x10FE` (R26, R41). -/
  pcBound : s.pc.toNat ≤ 0x10FE
  /-- A stacked return address is at most 0x1000 (R26). -/
  stackBound : ∀ k : Fin 16, s.stack[k].toNat ≤ 0x1000
  /-- The range of LOADED is 0 to 3584 (R36). -/
  loadedBound : s.loaded ≤ Config.romMax
  /-- OPCODES_PER_FRAME is at least 1 (R7). -/
  framePositive : 0 < s.opcodesPerFrame
  /-- Fewer than OPCODES_PER_FRAME cycles of the tick have completed when another is to run (R225). -/
  countBound : ∀ n, s.phase = .execute n → n < s.opcodesPerFrame
  /-- A terminal status ends the execute phase (R225, R229). -/
  stoppedLeaves : s.status ≠ .running → ∀ n, s.phase ≠ .execute n
  /-- The framebuffer has been presented when a tick is over (R32, R225). -/
  shownBetween : s.phase = .between → s.dirty = false
  /-- The recorded reason is faithful. -/
  record : recordFaithful s

/-! ### Sprites, pixel by pixel (R172 to R174) -/

/-- The N-row sprite at I, drawn with its origin at (`x`, `y`), has a 1 bit for the pixel (`px`, `py`): pixel j of sprite row i
lies at column `(x + j) mod 64` and row `(y + i) mod 32` (R173, R174). -/
def spritePixel (s : State) (x y n px py : Nat) : Bool :=
  decide ((py + 32 - y) % 32 < n) && decide ((px + 64 - x) % 64 < 8) &&
    (s.mem.read (s.i.toNat + (py + 32 - y) % 32)).getLsbD (7 - (px + 64 - x) % 64)

/-- A pixel on the grid that was set in `before` and is clear in `after`. -/
def PixelCleared (before after : Framebuffer) : Prop :=
  ∃ px py, px < 64 ∧ py < 32 ∧ pixel before px py = true ∧ pixel after px py = false

/-! ### Call-stack entries not in use -/

/-- The two states differ at most in stack entries that are not in use (R28). -/
def SameButVacatedStack (s t : State) : Prop :=
  t = { s with stack := t.stack } ∧ ∀ k : Fin 16, k.val < s.sp.val → t.stack[k] = s.stack[k]

end Sys2Proof.Machine
end

