-- ==== Sys2Proof/Certificates/Slice0/Obligations.lean ====
section
/-! DEFINITION. The statements for the provers, each formalising rules of spec/ as its docstring says. A next state is always
the conclusion, under hypotheses on the state and the operands alone. -/

open Sys2Proof Sys2Proof.Machine

/-! ### Encoding -/

/-- Words written out from the opcode table decode to their instructions (R81, R87). Model sanity. That 01E0 is refused is the
spec's decision D7 (R86, log entry 17); that half a word is refused as `truncated` is the model's own form (log entry 29). -/
def Obligations.WrittenWordsDecode : Prop :=
  decodeBytes [0x00, 0xE0] = .ok (.cls, []) ∧ decodeBytes [0x12, 0x34] = .ok (.jp 0x234, []) ∧
  decodeBytes [0x3A, 0x42] = .ok (.seImm 10 0x42, []) ∧ decodeBytes [0x81, 0x24] = .ok (.addReg 1 2, []) ∧
  decodeBytes [0xD0, 0x12] = .ok (.drw 0 1 2, []) ∧ decodeBytes [0xF3, 0x0A] = .ok (.ldVxK 3, []) ∧
  decodeBytes [0x01, 0xE0] = .error (.unimplemented 0x01E0) ∧ decodeBytes [0x12] = .error .truncated

/-- Every instruction, with every operand at every value its field admits, is read back from its word (R83, R85, R87), and
from its two bytes whatever follows them (R52, R80). That the byte decoder gives back the bytes after the instruction is the
model's own form (log entry 29). -/
def Obligations.DecodeOfEncodeIsIdentity : Prop :=
  ∀ i : Instr, decodeWord (encode i) = .ok i ∧ ∀ rest, decodeBytes (encodeBytes i ++ rest) = .ok (i, rest)

/-- A word that decodes is the word of the instruction it decodes to: no bit is dropped, the ignored field Y of 8XY6 and
8XYE included (R83, R85). -/
def Obligations.EncodeOfDecodeIsIdentity : Prop :=
  ∀ (w : Word) (i : Instr), decodeWord w = .ok i → encode i = w

/-- The decoder accepts exactly the words some row of the opcode table covers, as that row's instruction, and no other row
covers such a word: "The rows are disjoint: no word matches two rows" (R85, R87). That the table matches group 0 whole and
9XYN only with N = 0 are the spec's decisions D7 and D8 (log entry 17). -/
def Obligations.DecodableWordsAreTheTable : Prop :=
  ∀ w : Word,
    (∀ i, decodeWord w = .ok i → i.row ∈ opcodeTable ∧ i.row.covers w = true ∧
      ∀ r ∈ opcodeTable, r.covers w = true → r = i.row) ∧
    (∀ e, decodeWord w = .error e → e = .unimplemented w ∧ ∀ r ∈ opcodeTable, r.covers w = false)

/-- The illegal words, group by group (R88). Group 0 is the spec's decision D7 and group 9 its decision D8. -/
def Obligations.IllegalWordsByGroup : Prop :=
  ∀ w : Word, decodeWord w = .error (.unimplemented w) ↔
    ((opField w = 0x0 ∧ w ≠ 0x00E0 ∧ w ≠ 0x00EE) ∨ (opField w = 0x5 ∧ nField w ≠ 0) ∨
     (opField w = 0x8 ∧ nField w ∈ [(0x8 : Nibble), 0x9, 0xA, 0xB, 0xC, 0xD, 0xF]) ∨ (opField w = 0x9 ∧ nField w ≠ 0) ∨
     (opField w = 0xE ∧ nnField w ∉ [(0x9E : Byte), 0xA1]) ∨
     (opField w = 0xF ∧ nnField w ∉ [(0x07 : Byte), 0x0A, 0x15, 0x18, 0x1E, 0x29, 0x33, 0x55, 0x65]))

/-! ### Register load, logic, arithmetic, random (42_alu.md) -/

/-- 6XNN: `V[X] <- NN`, for each of the 16 registers and any byte; nothing else but PC changes; the word has X in bits 11 to 8
and NN in bits 7 to 0 (R130). -/
def Obligations.LoadImmediateResult : Prop :=
  (∀ w : Word, opField w = 0x6 → decodeWord w = .ok (.ldImm (xReg w) (nnField w))) ∧
  ∀ (x : Reg) (nn : Byte) (s : State), ∃ t, exec (.ldImm x nn) s = .next t ∧ t.getV x = nn ∧
    KeepsRegistersBut [x] s t ∧ t.pc = s.pc + 2 ∧ KeepsAllBut [.registers] s t

/-- 7XNN: `V[X] <- (V[X] + NN) mod 256`; the carry is lost, VF unchanged unless X = 0xF; the word has X in bits 11 to 8 and
NN in bits 7 to 0 (R131). -/
def Obligations.AddImmediateWraps : Prop :=
  (∀ w : Word, opField w = 0x7 → decodeWord w = .ok (.addImm (xReg w) (nnField w))) ∧
  ∀ (x : Reg) (nn : Byte) (s : State), ∃ t, exec (.addImm x nn) s = .next t ∧
    (t.getV x).toNat = ((s.getV x).toNat + nn.toNat) % 256 ∧
    KeepsRegistersBut [x] s t ∧ t.pc = s.pc + 2 ∧ KeepsAllBut [.registers] s t

/-- 8XY0 to 8XY3: copy, or, and, exclusive or, bit by bit, with no flag; the word has X in bits 11 to 8, Y in bits 7 to 4 and
0 to 3 in its low nibble (R132 to R135). -/
def Obligations.CopyAndLogicResults : Prop :=
  (∀ w : Word, opField w = 0x8 →
    (nField w = 0 → decodeWord w = .ok (.ldReg (xReg w) (yReg w))) ∧
    (nField w = 1 → decodeWord w = .ok (.orReg (xReg w) (yReg w))) ∧
    (nField w = 2 → decodeWord w = .ok (.andReg (xReg w) (yReg w))) ∧
    (nField w = 3 → decodeWord w = .ok (.xorReg (xReg w) (yReg w)))) ∧
  ∀ (x y : Reg) (s : State),
    (∃ t, exec (.ldReg x y) s = .next t ∧ t.getV x = s.getV y ∧
      KeepsRegistersBut [x] s t ∧ t.pc = s.pc + 2 ∧ KeepsAllBut [.registers] s t) ∧
    (∃ t, exec (.orReg x y) s = .next t ∧
      (∀ k < 8, (t.getV x).getLsbD k = ((s.getV x).getLsbD k || (s.getV y).getLsbD k)) ∧
      KeepsRegistersBut [x] s t ∧ t.pc = s.pc + 2 ∧ KeepsAllBut [.registers] s t) ∧
    (∃ t, exec (.andReg x y) s = .next t ∧
      (∀ k < 8, (t.getV x).getLsbD k = ((s.getV x).getLsbD k && (s.getV y).getLsbD k)) ∧
      KeepsRegistersBut [x] s t ∧ t.pc = s.pc + 2 ∧ KeepsAllBut [.registers] s t) ∧
    (∃ t, exec (.xorReg x y) s = .next t ∧
      (∀ k < 8, (t.getV x).getLsbD k = Bool.xor ((s.getV x).getLsbD k) ((s.getV y).getLsbD k)) ∧
      KeepsRegistersBut [x] s t ∧ t.pc = s.pc + 2 ∧ KeepsAllBut [.registers] s t)

/-- 8XY4: the sum modulo 256 and VF = 1 iff the sum of the values before exceeds 255 (R136). That with X = 0xF the sum is
lost and the flag stays is the spec's decision D5 (R23). -/
def Obligations.AddWithCarryResult : Prop :=
  ∀ (x y : Reg) (s : State), ∃ t, exec (.addReg x y) s = .next t ∧
    (x ≠ 15 → (t.getV x).toNat = ((s.getV x).toNat + (s.getV y).toNat) % 256) ∧
    t.getV 15 = (if (s.getV x).toNat + (s.getV y).toNat > 255 then 1 else 0) ∧
    KeepsRegistersBut [x, 15] s t ∧ t.pc = s.pc + 2 ∧ KeepsAllBut [.registers] s t

/-- 8XY5: `V[X] - V[Y]` modulo 256 and VF = 0 iff `V[Y] > V[X]` before (R137). X = 0xF is the spec's decision D5. -/
def Obligations.SubtractResult : Prop :=
  ∀ (x y : Reg) (s : State), ∃ t, exec (.sub x y) s = .next t ∧
    (x ≠ 15 → (t.getV x).toNat = ((s.getV x).toNat + 256 - (s.getV y).toNat) % 256) ∧
    t.getV 15 = (if (s.getV y).toNat > (s.getV x).toNat then 0 else 1) ∧
    KeepsRegistersBut [x, 15] s t ∧ t.pc = s.pc + 2 ∧ KeepsAllBut [.registers] s t

/-- 8XY7: `V[Y] - V[X]` modulo 256 and VF = 0 iff `V[X] > V[Y]` before: the flag's condition is the spec's decision D6
(R139), X = 0xF its decision D5. -/
def Obligations.ReverseSubtractResult : Prop :=
  ∀ (x y : Reg) (s : State), ∃ t, exec (.subn x y) s = .next t ∧
    (x ≠ 15 → (t.getV x).toNat = ((s.getV y).toNat + 256 - (s.getV x).toNat) % 256) ∧
    t.getV 15 = (if (s.getV x).toNat > (s.getV y).toNat then 0 else 1) ∧
    KeepsRegistersBut [x, 15] s t ∧ t.pc = s.pc + 2 ∧ KeepsAllBut [.registers] s t

/-- 8XY6 and 8XYE shift `V[X]` itself by one, whatever Y is; VF is the bit shifted out (R138, R140). X = 0xF is the spec's
decision D5. -/
def Obligations.ShiftResults : Prop :=
  ∀ (x y : Reg) (s : State),
    (∃ t, exec (.shr x y) s = .next t ∧ (x ≠ 15 → (t.getV x).toNat = (s.getV x).toNat / 2) ∧
      (t.getV 15).toNat = (s.getV x).toNat % 2 ∧
      KeepsRegistersBut [x, 15] s t ∧ t.pc = s.pc + 2 ∧ KeepsAllBut [.registers] s t) ∧
    (∃ t, exec (.shl x y) s = .next t ∧ (x ≠ 15 → (t.getV x).toNat = (s.getV x).toNat * 2 % 256) ∧
      (t.getV 15).toNat = (s.getV x).toNat / 128 ∧
      KeepsRegistersBut [x, 15] s t ∧ t.pc = s.pc + 2 ∧ KeepsAllBut [.registers] s t)

/-- CXNN: `V[X] <- r & NN` for the byte r the host supplies: the next one already given, which is used up, or else a free
one (R143, decision D19; log entry 4). It holds for every value of r; the result has no bit that NN lacks. -/
def Obligations.RandomByteMasked : Prop :=
  ∀ (x : Reg) (nn : Byte) (s : State), ∃ t r, exec (.rnd x nn) s = .next t ∧ t.getV x = r &&& nn ∧ t.getV x &&& ~~~nn = 0 ∧
    (∀ b bs, s.randInputs = b :: bs → r = b ∧ t.randInputs = bs) ∧
    (s.randInputs = [] → r = Config.randomByte s.draws ∧ t.randInputs = []) ∧ t.draws = s.draws + 1 ∧
    KeepsRegistersBut [x] s t ∧ t.pc = s.pc + 2 ∧ KeepsAllBut [.registers, .randomInput] s t

/-! ### Control transfer (40_flow.md) -/

/-- 00EE: the newest entry in use becomes PC exactly and is no longer in use; with none in use `StackUnderflow`, and nothing
else changes (R110), the spec's decision D4. The stack's form, a popped entry's bits included, is the spec's decision D22 (log
entry 24). -/
def Obligations.ReturnPopsOrUnderflows : Prop :=
  ∀ s : State,
    (0 < s.sp.val → ∃ t, exec .ret s = .next t ∧ t.sp.val = s.sp.val - 1 ∧
      (∀ k : Fin 16, k.val = s.sp.val - 1 → t.pc = s.stack[k]) ∧ (∀ k : Fin 16, t.stack[k] = s.stack[k]) ∧
      KeepsAllBut [.stack] s t) ∧
    (s.sp.val = 0 → TakesFault .stackUnderflow .ret s)

/-- 1NNN: to its own address it halts the Engine and changes nothing else; to any other it sets PC (R111). That the halt is no
fault is the spec's decision D27 (R204). -/
def Obligations.JumpOrSelfLoopHalt : Prop :=
  ∀ (nnn : Addr) (s : State),
    (nnn.toNat = s.pc.toNat → ∃ t, exec (.jp nnn) s = .next t ∧ t.status = .halted (encode (.jp nnn)) s.pc ∧ EndedWell t ∧
      ¬ GoneWrong t ∧ t.pc = s.pc ∧ KeepsAllBut [.status] s t) ∧
    (nnn.toNat ≠ s.pc.toNat → ∃ t, exec (.jp nnn) s = .next t ∧ t.pc.toNat = nnn.toNat ∧ KeepsAllBut [] s t)

/-- 2NNN: `PC + 2` goes on the stack and PC becomes NNN, its own address included; with 16 entries in use `StackOverflow`, and
nothing else changes (R112), the spec's decision D4. The stack's form is the spec's decision D22 (log entry 24). -/
def Obligations.CallPushesOrOverflows : Prop :=
  ∀ (nnn : Addr) (s : State),
    (s.sp.val < 16 → ∃ t, exec (.call nnn) s = .next t ∧ t.sp.val = s.sp.val + 1 ∧
      (∀ k : Fin 16, t.stack[k] = if k.val = s.sp.val then s.pc + 2 else s.stack[k]) ∧ t.pc.toNat = nnn.toNat ∧
      KeepsAllBut [.stack] s t) ∧
    (s.sp.val = 16 → TakesFault .stackOverflow (.call nnn) s)

/-- BNNN: PC becomes `V[0] + NNN`, not masked, whatever the sum; that a BNNN to itself is no halt is the spec's decision D34
(R113). -/
def Obligations.JumpPlusV0 : Prop :=
  ∀ (nnn : Addr) (s : State), ∃ t, exec (.jpV0 nnn) s = .next t ∧ t.pc.toNat = (s.getV 0).toNat + nnn.toNat ∧
    KeepsAllBut [] s t

/-- "executing 2NNN then 00EE restores pc to the instruction after the original call, for any valid NNN and starting pc": and
the stack has as many entries in use as before, the ones below untouched (R110, R112). The stack's form is the spec's decision
D22 (log entry 24). -/
def Obligations.CallThenReturnRoundTrip : Prop :=
  ∀ (nnn : Addr) (s : State), s.sp.val < 16 → ∃ t u, exec (.call nnn) s = .next t ∧ exec .ret t = .next u ∧
    u.pc = s.pc + 2 ∧ u.sp = s.sp ∧ (∀ k : Fin 16, k.val < s.sp.val → u.stack[k] = s.stack[k]) ∧ KeepsAllBut [.stack] s u

/-! ### Skips (41_skip.md, 45_keypad_timer.md) -/

/-- 3XNN and 4XNN: PC + 4 when the condition holds, else PC + 2, and nothing else changes (R120, R121, R124). -/
def Obligations.SkipOnImmediate : Prop :=
  ∀ (x : Reg) (nn : Byte) (s : State),
    (∃ t, exec (.seImm x nn) s = .next t ∧ t.pc = (if s.getV x = nn then s.pc + 4 else s.pc + 2) ∧ KeepsAllBut [] s t) ∧
    (∃ t, exec (.sneImm x nn) s = .next t ∧ t.pc = (if s.getV x ≠ nn then s.pc + 4 else s.pc + 2) ∧ KeepsAllBut [] s t)

/-- 5XY0 and 9XY0: PC + 4 when the condition holds, else PC + 2, and nothing else changes; with a low nibble other than 0 the
word is illegal, which for 9XY0 is the spec's decision D8 (R122, R123). -/
def Obligations.SkipOnRegisters : Prop :=
  (∀ (x y : Reg) (s : State),
    (∃ t, exec (.seReg x y) s = .next t ∧ t.pc = (if s.getV x = s.getV y then s.pc + 4 else s.pc + 2) ∧ KeepsAllBut [] s t) ∧
    (∃ t, exec (.sneReg x y) s = .next t ∧ t.pc = (if s.getV x ≠ s.getV y then s.pc + 4 else s.pc + 2) ∧
      KeepsAllBut [] s t)) ∧
  (∀ w : Word, (opField w = 5 ∨ opField w = 9) → nField w ≠ 0 → decodeWord w = .error (.unimplemented w))

/-- EX9E and EXA1: PC + 4 when the key is (is not) pressed in the latched snapshot, else PC + 2, and nothing else changes; that
the key is `V[X]` modulo 16 is the spec's decision D13 (R185 to R187). -/
def Obligations.SkipOnKey : Prop :=
  ∀ (x : Reg) (s : State),
    (∃ t, exec (.skp x) s = .next t ∧
      t.pc = (if s.kp.getLsbD ((s.getV x).toNat % 16) = true then s.pc + 4 else s.pc + 2) ∧ KeepsAllBut [] s t) ∧
    (∃ t, exec (.sknp x) s = .next t ∧
      t.pc = (if s.kp.getLsbD ((s.getV x).toNat % 16) = false then s.pc + 4 else s.pc + 2) ∧ KeepsAllBut [] s t)

/-! ### Index register and memory (43_index_memory.md) -/

/-- ANNN: `I <- NNN`; FX29: `I <- V[X] * 5`, for every value of `V[X]`; nothing else but PC changes; the words have NNN in
bits 11 to 0, X in bits 11 to 8 (R150, R152). -/
def Obligations.IndexLoads : Prop :=
  (∀ w : Word, (opField w = 0xA → decodeWord w = .ok (.ldI (nnnField w))) ∧
    (opField w = 0xF → nnField w = 0x29 → decodeWord w = .ok (.ldF (xReg w)))) ∧
  (∀ (nnn : Addr) (s : State), ∃ t, exec (.ldI nnn) s = .next t ∧ t.i.toNat = nnn.toNat ∧ t.pc = s.pc + 2 ∧
    KeepsAllBut [.index] s t) ∧
  (∀ (x : Reg) (s : State), ∃ t, exec (.ldF x) s = .next t ∧ t.i.toNat = (s.getV x).toNat * 5 ∧ t.pc = s.pc + 2 ∧
    KeepsAllBut [.index] s t)

/-- FX1E: `I <- (I + V[X]) mod 65536`, no flag, no fault; the modulus and the untouched VF are the spec's decision D2
(R151). -/
def Obligations.AddToIndexWraps : Prop :=
  ∀ (x : Reg) (s : State), ∃ t, exec (.addI x) s = .next t ∧ t.i.toNat = (s.i.toNat + (s.getV x).toNat) % 65536 ∧
    t.pc = s.pc + 2 ∧ KeepsAllBut [.index] s t

/-- FX33: when I, I + 1 and I + 2 lie in memory they receive hundreds, tens and ones, and every other byte reads as before;
else `MemoryOutOfRange`. I unchanged is the spec's decision D33, the fault its decision D1 (R153). The fault's precision is
the spec's decision D4 (log entry 14). -/
def Obligations.DecimalDigitsStored : Prop :=
  ∀ (x : Reg) (s : State),
    (s.i.toNat + 2 ≤ 4095 → ∃ t, exec (.ldB x) s = .next t ∧
      (t.mem.read s.i.toNat).toNat = (s.getV x).toNat / 100 ∧
      (t.mem.read (s.i.toNat + 1)).toNat = (s.getV x).toNat / 10 % 10 ∧
      (t.mem.read (s.i.toNat + 2)).toNat = (s.getV x).toNat % 10 ∧
      (∀ a, a < s.i.toNat ∨ s.i.toNat + 3 ≤ a → t.mem.read a = s.mem.read a) ∧
      t.pc = s.pc + 2 ∧ KeepsAllBut [.memory] s t) ∧
    (s.i.toNat + 2 > 4095 → TakesFault .memoryOutOfRange (.ldB x) s)

/-- FX55: when I to I + X lie in memory, the byte at I + k receives `V[k]` for k = 0 to X, every other byte reads as before,
and I and the registers are unchanged; else `MemoryOutOfRange`, and no byte is written; the word has X in bits 11 to 8
(R154). The fault is the spec's decision D1, its precision D4. -/
def Obligations.StoreRegistersResult : Prop :=
  (∀ w : Word, opField w = 0xF → nnField w = 0x55 → decodeWord w = .ok (.stRegs (xReg w))) ∧
  ∀ (x : Reg) (s : State),
    (s.i.toNat + x.val ≤ 4095 → ∃ t, exec (.stRegs x) s = .next t ∧
      (∀ r : Reg, r ≤ x → t.mem.read (s.i.toNat + r.val) = s.getV r) ∧
      (∀ a, a < s.i.toNat ∨ s.i.toNat + x.val < a → t.mem.read a = s.mem.read a) ∧
      t.pc = s.pc + 2 ∧ KeepsAllBut [.memory] s t) ∧
    (s.i.toNat + x.val > 4095 → TakesFault .memoryOutOfRange (.stRegs x) s)

/-- FX65: when I to I + X lie in memory, `V[k]` receives the byte at I + k for k = 0 to X and the registers above VX keep
their values; else `MemoryOutOfRange`. I unchanged is the spec's decision D33, the fault its decision D1 (R155). The fault's
precision is the spec's decision D4 (log entry 14). -/
def Obligations.LoadRegistersResult : Prop :=
  ∀ (x : Reg) (s : State),
    (s.i.toNat + x.val ≤ 4095 → ∃ t, exec (.ldRegs x) s = .next t ∧
      (∀ r : Reg, t.getV r = if r ≤ x then s.mem.read (s.i.toNat + r.val) else s.getV r) ∧
      t.pc = s.pc + 2 ∧ KeepsAllBut [.registers] s t) ∧
    (s.i.toNat + x.val > 4095 → TakesFault .memoryOutOfRange (.ldRegs x) s)

/-- DXYN reaching past 4095 takes `MemoryOutOfRange` with nothing drawn, whether or not the origin is on the grid: the spec's
decisions D1 and D11 (R56, R172, R209). With no sprite byte to read there is no such fault (D10). The fault's precision is the
spec's decision D4 (log entry 14). -/
def Obligations.DrawOutOfRangeFaults : Prop :=
  ∀ (x y : Reg) (n : Nibble) (s : State),
    (0 < n.toNat → s.i.toNat + n.toNat - 1 > 4095 → TakesFault .memoryOutOfRange (.drw x y n) s) ∧
    (n.toNat = 0 → ∃ t, exec (.drw x y n) s = .next t ∧ t.status = s.status ∧ t.pc = s.pc + 2)

/-- A store of V0 to VX and then a load of V0 to VX from the same place, whatever the registers hold in between, brings back
what was stored (R61, R154, R155). -/
def Obligations.StoreThenLoadRestores : Prop :=
  ∀ (x : Reg) (s : State) (v : Vector Byte 16), s.i.toNat + x.val ≤ 4095 →
    ∃ t u, exec (.stRegs x) s = .next t ∧ exec (.ldRegs x) { t with v := v } = .next u ∧
      (∀ r : Reg, r ≤ x → u.getV r = s.getV r) ∧ ∀ r : Reg, x < r → u.getV r = v[r]

/-- "Stores are seen by later fetches with nothing in between": when FX55 has stored two registers where PC then points, the
next cycle executes the instruction their bytes spell, high byte first (R52, R63). The step and its phase are the model's form
of R225's `Tick` (log entry 6). -/
def Obligations.StoredWordIsExecuted : Prop :=
  ∀ (x k k' : Reg) (s : State) (n : Nat) (i : Instr), s.i.toNat + x.val ≤ 4095 → k'.val = k.val + 1 → k' ≤ x →
    decodeWord (wordOfBytes (s.getV k) (s.getV k')) = .ok i →
    ∃ t, exec (.stRegs x) s = .next t ∧ ∀ u, u.mem = t.mem → u.pc.toNat = s.i.toNat + k.val → legalPc u.pc = true →
      u.status = .running → u.phase = .execute n →
      ∃ w p, exec i u = .next w ∧ step u = .next { w with phase := p }

/-! ### Display (44_display.md) -/

/-- 00E0, "the exact word 0x00E0": all 256 bytes become 0 and DIRTY 1, even when they were 0; VF and everything else but PC is
unchanged (R170). That no other word of group 0 is this instruction is the spec's decision D7 (R86, log entry 17). -/
def Obligations.ClearScreenResult : Prop :=
  (∀ w : Word, decodeWord w = .ok .cls ↔ w = 0x00E0) ∧
  ∀ s : State, ∃ t, exec .cls s = .next t ∧ (∀ b : Fin 256, t.fb[b] = 0) ∧ t.dirty = true ∧ t.pc = s.pc + 2 ∧
    KeepsAllBut [.screen] s t

/-- DXYN with its sprite in memory and its origin on the grid toggles exactly the pixels where the sprite has a 1 bit, pixel j
of row i at column `(x + j) mod 64` and row `(y + i) mod 32`, sets DIRTY, and changes nothing else but VF and PC. The
byte-by-byte split is the spec's decision D12 (R30, R172 to R174). That X or Y = 0xF reads the old VF is the spec's decision
D5 (log entry 15). -/
def Obligations.DrawTogglesSpritePixels : Prop :=
  ∀ (x y : Reg) (n : Nibble) (s : State), s.i.toNat + n.toNat ≤ 4096 → (s.getV x).toNat < 64 → (s.getV y).toNat < 32 →
    ∃ t, exec (.drw x y n) s = .next t ∧
      (∀ px py, px < 64 → py < 32 → pixel t.fb px py =
        Bool.xor (pixel s.fb px py) (spritePixel s (s.getV x).toNat (s.getV y).toNat n.toNat px py)) ∧
      t.dirty = true ∧ KeepsRegistersBut [15] s t ∧ t.pc = s.pc + 2 ∧ KeepsAllBut [.registers, .screen] s t

/-- DXYN sets VF to 1 when some pixel that was set became clear, and to 0 otherwise (R175). That VF is written last, X or Y =
0xF included, is the spec's decision D5 (log entry 15). -/
def Obligations.DrawReportsCollision : Prop :=
  ∀ (x y : Reg) (n : Nibble) (s : State), 0 < n.toNat → s.i.toNat + n.toNat ≤ 4096 → (s.getV x).toNat < 64 →
    (s.getV y).toNat < 32 →
    ∃ t, exec (.drw x y n) s = .next t ∧ (PixelCleared s.fb t.fb → t.getV 15 = 1) ∧
      (¬ PixelCleared s.fb t.fb → t.getV 15 = 0)

/-- DXYN with its origin off the grid, or with N = 0, draws nothing, sets VF to 0 and DIRTY to 1: the spec's decisions D9 and
D10 (R176). That X or Y = 0xF reads the old VF is the spec's decision D5 (log entry 15). -/
def Obligations.DrawNothingCases : Prop :=
  ∀ (x y : Reg) (n : Nibble) (s : State), (n.toNat = 0 ∨ s.i.toNat + n.toNat ≤ 4096) →
    (n.toNat = 0 ∨ 64 ≤ (s.getV x).toNat ∨ 32 ≤ (s.getV y).toNat) →
    ∃ t, exec (.drw x y n) s = .next t ∧ t.fb = s.fb ∧ t.getV 15 = 0 ∧ t.dirty = true ∧
      KeepsRegistersBut [15] s t ∧ t.pc = s.pc + 2 ∧ KeepsAllBut [.registers, .screen] s t

/-- Drawing the same sprite twice at the same place (the registers put back in between, so that X or Y = 0xF is covered)
restores the framebuffer; the second draw reports a collision exactly when the first turned a pixel on (R177). That a draw of
nothing gives VF = 0 are the spec's decisions D9 and D10 (log entry 18), that VF is written last its decision D5 (log entry
15). -/
def Obligations.DrawTwiceRestores : Prop :=
  ∀ (x y : Reg) (n : Nibble) (s : State), (n.toNat = 0 ∨ s.i.toNat + n.toNat ≤ 4096) →
    ∃ t u, exec (.drw x y n) s = .next t ∧ exec (.drw x y n) { t with v := s.v } = .next u ∧ u.fb = s.fb ∧
      (u.getV 15 = 1 ↔ PixelCleared t.fb s.fb)

/-! ### Keypad and timer instructions (45_keypad_timer.md) -/

/-- FX07 reads DT, FX15 writes DT, FX18 writes ST, and nothing else but PC changes (R189 to R191). -/
def Obligations.TimerInstructions : Prop :=
  ∀ (x : Reg) (s : State),
    (∃ t, exec (.ldVxDt x) s = .next t ∧ t.getV x = s.dt ∧ KeepsRegistersBut [x] s t ∧ t.pc = s.pc + 2 ∧
      KeepsAllBut [.registers] s t) ∧
    (∃ t, exec (.ldDtVx x) s = .next t ∧ t.dt = s.getV x ∧ t.pc = s.pc + 2 ∧ KeepsAllBut [.delayTimer] s t) ∧
    (∃ t, exec (.ldStVx x) s = .next t ∧ t.st = s.getV x ∧ t.pc = s.pc + 2 ∧ KeepsAllBut [.soundTimer] s t)

/-- FX0A with no key pressed changes nothing at all; with a key pressed it writes the lowest pressed key's number, which key
it is being the spec's decision D14 (R188). That a key already held is taken at once is its decision D14 too, and that the
cycle without a key changes nothing its decision D15 (log entry 21). -/
def Obligations.WaitKeyResult : Prop :=
  ∀ (x : Reg) (s : State),
    (s.kp = 0 → exec (.ldVxK x) s = .next s) ∧
    (s.kp ≠ 0 → ∃ t k, exec (.ldVxK x) s = .next t ∧ k < 16 ∧ s.kp.getLsbD k = true ∧
      (∀ j < k, s.kp.getLsbD j = false) ∧ (t.getV x).toNat = k ∧ KeepsRegistersBut [x] s t ∧ t.pc = s.pc + 2 ∧
      KeepsAllBut [.registers] s t)

/-! ### Rules over all instructions -/

/-- Every instruction answers a next state in every state: the spec gives each its effect, a fault it describes included (R87,
R201). That a fault is a next state is log entry 7; that EX9E and EXA1 have an effect for V[X] above 15 is the spec's decision
D13 (log entry 20). -/
def Obligations.ExecAlwaysAnswersNext : Prop :=
  ∀ (i : Instr) (s : State), ∃ t, exec i s = .next t

/-- An instruction writes only the registers and the parts of the state that rule R40's table gives it, which the spec marks
as derived from its instruction rules. That no other instruction writes VF as a flag, that FX33 and FX65 leave I, and that a
fault writes STATUS alone are the spec's decisions D30, D33 and D4 (log entries 27, 12, 14); the parts for the host's inputs
and outputs are the model's own fields (log entries 4, 5, 6, 8). -/
def Obligations.AccessMatrix : Prop :=
  ∀ (i : Instr) (s t : State), exec i s = .next t →
    (∀ r : Reg, writesRegister i r = false → t.getV r = s.getV r) ∧ KeepsAllBut (writtenParts i) s t

/-- VF holds 0 or 1 after each of the six instructions that define a flag, unless the instruction faulted (R22). With X = 0xF
it rests on the spec's decision D5 (log entry 15), for a DXYN that draws nothing on its decisions D9 and D10 (log entry 18).
-/
def Obligations.FlagIsZeroOrOne : Prop :=
  ∀ (i : Instr) (s t : State), definesFlag i = true → s.status = .running → exec i s = .next t → t.status = .running →
    t.getV 15 = 0 ∨ t.getV 15 = 1

/-- An instruction that stops the Engine does nothing else: STATUS records the halt or the fault with the instruction's word
and PC, and every other cell is as before; that faults are precise is the spec's decision D4 (R204 to R206). That the halt is
no fault is the spec's decision D27 (log entry 27); that the word recorded is the instruction's encoding is log entry 14. -/
def Obligations.StopsArePrecise : Prop :=
  ∀ (i : Instr) (s t : State), s.status = .running → exec i s = .next t → t.status ≠ .running →
    t = { s with status := t.status } ∧
      (t.status = .halted (encode i) s.pc ∨ ∃ kind, t.status = .faulted kind (some (encode i)) s.pc)

/-- No instruction reads the sound timer: with another value in ST the same instruction does the same, and ST keeps that value
unless FX18 writes it (R33, R191). -/
def Obligations.SoundTimerNeverRead : Prop :=
  ∀ (i : Instr) (s : State) (b : Byte), ∃ t, exec i s = .next t ∧
    ((∃ x, i = .ldStVx x) → exec i { s with st := b } = .next t) ∧
    ((∀ x, i ≠ .ldStVx x) → exec i { s with st := b } = .next { t with st := b })

/-- "no instruction can observe an entry at index >= SP": states that differ only in such entries stay so (R28, decision
D22). -/
def Obligations.VacatedStackUnobservable : Prop :=
  ∀ (i : Instr) (s s' : State), SameButVacatedStack s s' →
    ∃ t t', exec i s = .next t ∧ exec i s' = .next t' ∧ SameButVacatedStack t t'

/-! ### The step (60_exceptions.md). The steps and phases are the model's form of R225's `Tick` (log entry 6). -/

/-- In the execute phase with STATUS RUNNING and a legal PC, when the two bytes at PC decode to `i` the step is `exec i` of
that state, and then the Scheduler's place alone: the phase goes on exactly when STATUS is still RUNNING, the instruction is
not an FX0A that found no key, and fewer than OPCODES_PER_FRAME cycles of the tick have completed (R200, R225 to R227). That
such an FX0A ends the phase is the spec's decision D15. That a stopped Engine's tick still has its last phase is its decision
D17 (log entry 23); the step and its phase are the model's form of `Tick` (log entry 6). -/
def Obligations.StepRunsDecodedInstruction : Prop :=
  ∀ (n : Nat) (s : State) (i : Instr), s.phase = .execute n → s.status = .running → legalPc s.pc = true →
    decodeBytes [s.mem.read s.pc.toNat, s.mem.read (s.pc.toNat + 1)] = .ok (i, []) →
    ∃ t p, exec i s = .next t ∧ step s = .next { t with phase := p } ∧
      ((t.status = .running ∧ ¬ ((∃ x, i = .ldVxK x) ∧ s.kp = 0) ∧ n + 1 < s.opcodesPerFrame) → p = .execute (n + 1)) ∧
      (¬ (t.status = .running ∧ ¬ ((∃ x, i = .ldVxK x) ∧ s.kp = 0) ∧ n + 1 < s.opcodesPerFrame) → p = .finish)

/-- A PC that is odd, below 0x200 or above 4095 takes `MisalignedProgramCounter` at the start of the cycle, with that PC and
no opcode recorded, before anything is read; when the test is made is the spec's decision D3 (R202). That the fault changes
nothing else and that the tick's last phase follows are the spec's decisions D4 and D17; the step and its phase are log entry
6. -/
def Obligations.StepFaultsOnIllegalPc : Prop :=
  ∀ (n : Nat) (s : State), s.phase = .execute n → s.status = .running →
    (s.pc.toNat % 2 = 1 ∨ s.pc.toNat < 0x200 ∨ s.pc.toNat ≥ 4096) →
    step s = .next { s with status := .faulted .misalignedProgramCounter none s.pc, phase := .finish }

/-- A fetched word that is no instruction's takes `UnimplementedOpcode`, with the word and its PC recorded; that nothing else
changes is the spec's decision D4 (R203, R205). Which words of groups 0 and 9 are illegal are the spec's decisions D7 and D8,
that the tick's last phase follows its decision D17; the step and its phase are log entry 6. -/
def Obligations.StepFaultsOnIllegalWord : Prop :=
  ∀ (n : Nat) (s : State), s.phase = .execute n → s.status = .running → legalPc s.pc = true →
    (∀ i, encode i ≠ wordOfBytes (s.mem.read s.pc.toNat) (s.mem.read (s.pc.toNat + 1))) →
    step s = .next
      { s with
        status := .faulted .unimplementedOpcode (some (wordOfBytes (s.mem.read s.pc.toNat) (s.mem.read (s.pc.toNat + 1)))) s.pc,
        phase := .finish }

/-- A word the host places with `withFetchWord` is the one the very next step executes, from any state (the model's interface,
log entry 1). The step and its phase are log entry 6. -/
def Obligations.PlacedWordIsRunNext : Prop :=
  ∀ (s : State) (i : Instr), ∃ t p, exec i (s.withFetchWord 16 (encode i).toNat) = .next t ∧
    step (s.withFetchWord 16 (encode i).toNat) = .next { t with phase := p }

/-- A jump to itself ends the run: the halt, then the present+tick phase of the same tick, then no further tick; PC stays and
the timers count once (R204, R229, R263). That the last tick completes is the spec's decision D17. That the halt is no fault
is the spec's decision D27 (log entry 27); the steps are log entry 6, the stop at the end log entry 7. -/
def Obligations.SelfLoopEndsTheRun : Prop :=
  ∀ (n : Nat) (s : State) (nnn : Addr), s.phase = .execute n → s.status = .running → legalPc s.pc = true →
    s.fetchWord = encode (.jp nnn) → nnn.toNat = s.pc.toNat →
    ∃ t, Host.Core.run core 2 s = .next t ∧ EndedWell t ∧ t.pc = s.pc ∧ t.dt.toNat = s.dt.toNat - 1 ∧
      t.st.toNat = s.st.toNat - 1 ∧ step t = .fault (.halted (encode (.jp nnn)) s.pc)

/-- Once STATUS is not RUNNING no step changes it, nor anything of the Engine's; a tick under way still presents and counts
its timers, and no tick begins (R35, R211, R229; decisions D17 and D24). The steps are log entry 6, the stop between ticks log
entry 7. -/
def Obligations.StoppedEngineStaysStopped : Prop :=
  ∀ s : State, s.status ≠ .running →
    (∀ t, step s = .next t → t.status = s.status ∧ t.v = s.v ∧ t.i = s.i ∧ t.pc = s.pc ∧ t.mem = s.mem ∧
      t.stack = s.stack ∧ t.sp = s.sp ∧ t.fb = s.fb ∧ t.ticks = s.ticks) ∧
    (s.phase = .between → ∃ f, step s = .fault f)

/-! ### The scheduler (60_exceptions.md), in the steps and phases of log entry 6 -/

/-- `Tick` whole is what the steps do one at a time: from the start of a tick some number of steps, at most one for each
opcode slot and two more, leads to the state `Tick` gives (R225 to R227, R229). The steps are the model's form (log entry 6).
What `Tick` itself does at a stop, at an FX0A with no key and for its open count are the spec's decisions D17, D15 and D18
(log entries 23, 21, 3). -/
def Obligations.TickIsItsSteps : Prop :=
  ∀ s : State, s.phase = .between → s.status = .running → 0 < s.opcodesPerFrame →
    ∃ k t, k ≤ s.opcodesPerFrame + 2 ∧ tick s = .next t ∧ Host.Core.run core k s = .next t ∧ t.phase = .between

/-- A tick begins by latching the host's snapshot, the next one already given or else a free one, and by clearing DIRTY;
nothing else of the machine changes (R225, R231; decision D16, log entry 5). The step and its phase are log entry 6; the latch
is log entry 22. -/
def Obligations.BeginTickLatchesKeys : Prop :=
  ∀ s : State, s.phase = .between → s.status = .running →
    ∃ t, step s = .next t ∧ (∀ k ks, s.keyInputs = k :: ks → t.kp = k ∧ t.keyInputs = ks) ∧
      (s.keyInputs = [] → t.kp = Config.keySnapshot s.ticks ∧ t.keyInputs = []) ∧ t.dirty = false ∧
      t.phase = .execute 0 ∧ t.ticks = s.ticks + 1 ∧ t.fb = s.fb ∧ t.pc = s.pc ∧ t.presents = s.presents ∧
      KeepsAllBut [.screen, .host] s t

/-- "decrements each of delay/sound timers by 1 if currently > 0; never decrements below 0", once per tick, after its cycles:
the step that ends a tick counts both timers down, no other step counts, and from 5 five ticks lead to 0 and a sixth leaves
it there (R220). Within a tick only FX15 and FX18 write a timer (R221). The steps and phases are the model's form of R225's
`Tick` (log entry 6); that the tick of a stopped Engine still counts is the spec's decision D17 (log entry 23). -/
def Obligations.TimersCountDownPerTick : Prop :=
  (∀ s : State, s.phase = .finish → ∃ t, step s = .next t ∧ t.dt.toNat = s.dt.toNat - 1 ∧ t.st.toNat = s.st.toNat - 1 ∧
    t.phase = .between ∧ t.pc = s.pc ∧ KeepsAllBut [.screen, .delayTimer, .soundTimer, .host] s t) ∧
  (∀ s t : State, s.phase ≠ .finish → step s = .next t →
    (t.dt ≠ s.dt → (∃ n, s.phase = .execute n) ∧ ∃ x, decodeWord s.fetchWord = .ok (.ldDtVx x)) ∧
    (t.st ≠ s.st → (∃ n, s.phase = .execute n) ∧ ∃ x, decodeWord s.fetchWord = .ok (.ldStVx x))) ∧
  (∀ s : State, s.dt = 5 → (State.timersTick^[5] s).dt = 0 ∧ (State.timersTick^[6] s).dt = 0)

/-- At the end of a tick the display receives the framebuffer once when DIRTY is set, and nothing when it is not; DIRTY is
then 0 and the framebuffer unchanged (R225, R232). That the tick of a stopped Engine still presents is the spec's decision D17
(log entry 23); the list of bitmaps, newest first, is the model's own form (log entry 8), the step and its phase too (log
entry 6). -/
def Obligations.PresentOnlyWhenDirty : Prop :=
  ∀ s : State, s.phase = .finish → ∃ t, step s = .next t ∧ t.presents = (if s.dirty = true then s.fb :: s.presents else s.presents) ∧
    t.dirty = false ∧ t.fb = s.fb

/-- Within the execute phase the keypad latch and the display's output do not change, and a timer changes only by FX15 or
FX18, to the value of its register (R221, R261, R262). That the keypad latch is constant through a tick's cycles is the spec's
decision D16 (R34, R231; log entry 22); that a stopped Engine's cycle changes nothing is its decision D24 (log entry 14); the
display's output and the tick count are the model's own fields (log entries 8, 5), the step and its phase its form (log entry
6). -/
def Obligations.KeypadAndTimersFixedInGroup : Prop :=
  ∀ (n : Nat) (s t : State), s.phase = .execute n → step s = .next t →
    t.kp = s.kp ∧ t.presents = s.presents ∧ t.ticks = s.ticks ∧
    (t.dt ≠ s.dt → ∃ x, decodeWord s.fetchWord = .ok (.ldDtVx x) ∧ t.dt = s.getV x) ∧
    (t.st ≠ s.st → ∃ x, decodeWord s.fetchWord = .ok (.ldStVx x) ∧ t.st = s.getV x)

/-- No step changes FONT, OPCODES_PER_FRAME or LOADED, and every step that is not a stop at the end of a run answers a next
state (R7, R36, R38, R229). That the parameters are fields is log entries 2 and 3; the steps are log entry 6, the stop between
ticks log entry 7. -/
def Obligations.ParametersNeverChange : Prop :=
  ∀ s : State, (s.phase = .between ∧ s.status ≠ .running) ∨
    ∃ t, step s = .next t ∧ t.mem.font = s.mem.font ∧ t.opcodesPerFrame = s.opcodesPerFrame ∧ t.loaded = s.loaded

/-! ### Invariants -/

/-- The state after reset meets the invariant, whatever FONT is and for every OPCODES_PER_FRAME of at least 1 (R39, R41). The
spec marks R41 as derived; the canonical memory, the phase and the clauses about the Scheduler are the model's own (log
entries 10, 6, 3), and DIRTY, STATUS and LOADED at reset the spec's decision D21 (log entry 9). -/
def Obligations.ResetMeetsInvariant : Prop :=
  (∀ (font : Vector Byte 80) (n : Nat), 0 < n → Inv (State.resetWith font n)) ∧ Inv State.reset

/-- Every step keeps the invariant: canonical memory, the bounds of PC, stack, LOADED and the cycle count, and the
faithfulness of the recorded reason (R26, R35, R36, R41, R206, R225). The spec marks R41 as derived; the canonical memory, the
phase and the clauses about the Scheduler are the model's own (log entries 10, 6, 3); that a stop leaves the execute phase for
the tick's last one is the spec's decision D17 (log entry 23), the faithful record its decisions D3 and D4 (log entries 13,
14). -/
def Obligations.StepKeepsInvariant : Prop :=
  ∀ s t : State, Inv s → step s = .next t → Inv t

/-! ### Reset and load (70_reset_and_hazards.md) -/

/-- The reset values, for any FONT; DIRTY, KP, STATUS and LOADED are the spec's decision D21, SP is derived by the spec and its
decision D22 (R28, R39, R250; log entry 9). The spec gives memory up to address 4095; that an address above it reads as 0 is
the model's choice (log entry 10). -/
def Obligations.ResetValues : Prop :=
  ∀ (font : Vector Byte 80) (opf : Nat), ∃ s, s = State.resetWith font opf ∧ (∀ r : Reg, s.getV r = 0) ∧ s.i = 0 ∧
    s.pc = 0x200 ∧ (∀ a : Fin 80, s.mem.read a.val = font[a]) ∧ (∀ a, 80 ≤ a → s.mem.read a = 0) ∧
    (∀ k : Fin 16, s.stack[k] = 0) ∧ s.sp = 0 ∧ (∀ b : Fin 256, s.fb[b] = 0) ∧ s.dt = 0 ∧ s.st = 0 ∧ s.dirty = false ∧
    s.kp = 0 ∧ s.status = .running ∧ s.loaded = 0

/-- `LoadRom`: byte j of the stream goes to 0x200 + j, at most 3584 of them; LOADED counts them; an empty stream and one of
more than 3584 bytes are load errors; "It touches nothing but MEM[0x200..0xFFF] and LOADED" (R255). That the first 3584 bytes
of a stream too large stay in memory is the spec's decision D25 (log entry 25); that addresses above 4095 read alike is the
model's choice (log entry 10). -/
def Obligations.LoadRomResult : Prop :=
  ∀ (s : State) (stream : List Byte),
    (∀ j b, j < 3584 → stream[j]? = some b → (s.loadRom stream).mem.read (0x200 + j) = b) ∧
    (∀ a, a < 0x200 ∨ 0x200 + min stream.length 3584 ≤ a → (s.loadRom stream).mem.read a = s.mem.read a) ∧
    (s.loadRom stream).loaded = min stream.length 3584 ∧
    s.loadRom stream = { s with mem := (s.loadRom stream).mem, loaded := (s.loadRom stream).loaded } ∧
    (loadError stream = some .emptyRom ↔ stream.length = 0) ∧
    (loadError stream = some .romTooLarge ↔ stream.length > 3584) ∧
    (loadError stream = none ↔ 0 < stream.length ∧ stream.length ≤ 3584)

/-- After `Reset()` and `LoadRom` of a ROM that fits, the first step begins the first tick and the second executes the ROM's
first word, a missing second byte reading as 0; a ROM that does not fit boots no machine (R256 to R258). That no run follows a
load error is the spec's decision D25 (log entry 25), the missing second byte its derivation (R258); that a program comes to
run so is log entry 1, the steps log entry 6. -/
def Obligations.BootRunsFirstWord : Prop :=
  ∀ (font : Vector Byte 80) (opf : Nat) (stream : List Byte),
    (stream.length = 0 ∨ stream.length > 3584 → ∃ e, boot font opf stream = .error e) ∧
    (∀ i, 0 < stream.length → stream.length ≤ 3584 →
      decodeWord (wordOfBytes (stream.getD 0 0) (stream.getD 1 0)) = .ok i →
      ∃ s t u p, boot font opf stream = .ok s ∧ step s = .next t ∧ t.pc = 0x200 ∧ exec i t = .next u ∧
        step t = .next { u with phase := p })
end

