-- ==== Sys2Proof/Laws/Decode.lean ====
section
/-! SUPPORT. The fields of an encoded word, and the word its fields make: what the round trips of the encoding rest on. -/

namespace Sys2Proof

/-! ### Register numbers and nibbles -/

@[simp] theorem regOfNibble_nibbleOfReg (r : Reg) : regOfNibble (nibbleOfReg r) = r := by
  apply Fin.ext
  simp [regOfNibble, nibbleOfReg]

@[simp] theorem nibbleOfReg_regOfNibble (n : Nibble) : nibbleOfReg (regOfNibble n) = n := by
  apply BitVec.eq_of_toNat_eq
  have := n.isLt
  simp only [regOfNibble, nibbleOfReg, BitVec.toNat_ofNat]
  omega

/-! ### The fields of an encoded word -/

@[simp] theorem opField_encodeA (op : Nibble) (nnn : Addr) : opField (encodeA op nnn) = op := by
  apply BitVec.eq_of_getLsbD_eq
  intro k hk
  simp only [opField, encodeA, BitVec.getLsbD_append, BitVec.getLsbD_extractLsb']
  simp [hk, show ¬ 12 + k < 12 by omega, show 12 + k - 12 = k by omega]

@[simp] theorem nnnField_encodeA (op : Nibble) (nnn : Addr) : nnnField (encodeA op nnn) = nnn := by
  apply BitVec.eq_of_getLsbD_eq
  intro k hk
  simp only [nnnField, encodeA, BitVec.getLsbD_append, BitVec.getLsbD_extractLsb']
  simp [hk]

@[simp] theorem opField_encodeRI (op : Nibble) (x : Reg) (nn : Byte) : opField (encodeRI op x nn) = op := by
  apply BitVec.eq_of_getLsbD_eq
  intro k hk
  simp only [opField, encodeRI, BitVec.getLsbD_append, BitVec.getLsbD_extractLsb']
  simp [hk, show ¬ 12 + k < 8 by omega, show ¬ 12 + k - 8 < 4 by omega, show 12 + k - 8 - 4 = k by omega]

@[simp] theorem xReg_encodeRI (op : Nibble) (x : Reg) (nn : Byte) : xReg (encodeRI op x nn) = x := by
  have h : xField (encodeRI op x nn) = nibbleOfReg x := by
    apply BitVec.eq_of_getLsbD_eq
    intro k hk
    simp only [xField, encodeRI, BitVec.getLsbD_append, BitVec.getLsbD_extractLsb']
    simp [hk, show ¬ 8 + k < 8 by omega]
  rw [xReg, h, regOfNibble_nibbleOfReg]

@[simp] theorem nnField_encodeRI (op : Nibble) (x : Reg) (nn : Byte) : nnField (encodeRI op x nn) = nn := by
  apply BitVec.eq_of_getLsbD_eq
  intro k hk
  simp only [nnField, encodeRI, BitVec.getLsbD_append, BitVec.getLsbD_extractLsb']
  simp [hk]

@[simp] theorem opField_encodeRRN (op : Nibble) (x y : Reg) (n : Nibble) : opField (encodeRRN op x y n) = op := by
  apply BitVec.eq_of_getLsbD_eq
  intro k hk
  simp only [opField, encodeRRN, BitVec.getLsbD_append, BitVec.getLsbD_extractLsb']
  simp [hk, show ¬ 12 + k < 4 by omega, show ¬ 12 + k - 4 < 4 by omega, show ¬ 12 + k - 4 - 4 < 4 by omega,
    show 12 + k - 4 - 4 - 4 = k by omega]

@[simp] theorem xReg_encodeRRN (op : Nibble) (x y : Reg) (n : Nibble) : xReg (encodeRRN op x y n) = x := by
  have h : xField (encodeRRN op x y n) = nibbleOfReg x := by
    apply BitVec.eq_of_getLsbD_eq
    intro k hk
    simp only [xField, encodeRRN, BitVec.getLsbD_append, BitVec.getLsbD_extractLsb']
    simp [hk, show ¬ 8 + k < 4 by omega, show ¬ 8 + k - 4 < 4 by omega,
      show 8 + k - 4 - 4 = k by omega]
  rw [xReg, h, regOfNibble_nibbleOfReg]

@[simp] theorem yReg_encodeRRN (op : Nibble) (x y : Reg) (n : Nibble) : yReg (encodeRRN op x y n) = y := by
  have h : yField (encodeRRN op x y n) = nibbleOfReg y := by
    apply BitVec.eq_of_getLsbD_eq
    intro k hk
    simp only [yField, encodeRRN, BitVec.getLsbD_append, BitVec.getLsbD_extractLsb']
    simp [hk, show ¬ 4 + k < 4 by omega]
  rw [yReg, h, regOfNibble_nibbleOfReg]

@[simp] theorem nField_encodeRRN (op : Nibble) (x y : Reg) (n : Nibble) : nField (encodeRRN op x y n) = n := by
  apply BitVec.eq_of_getLsbD_eq
  intro k hk
  simp only [nField, encodeRRN, BitVec.getLsbD_append, BitVec.getLsbD_extractLsb']
  simp [hk]

/-! ### The word its fields make -/

theorem encodeA_fields (w : Word) : encodeA (opField w) (nnnField w) = w := by
  apply BitVec.eq_of_getLsbD_eq
  intro k hk
  simp only [encodeA, opField, nnnField, BitVec.getLsbD_append, BitVec.getLsbD_extractLsb']
  by_cases h : k < 12
  · simp [h]
  · simp [h, show k - 12 < 4 by omega, show 12 + (k - 12) = k by omega]

theorem encodeRI_fields (w : Word) : encodeRI (opField w) (xReg w) (nnField w) = w := by
  simp only [encodeRI, xReg, nibbleOfReg_regOfNibble]
  apply BitVec.eq_of_getLsbD_eq
  intro k hk
  simp only [opField, xField, nnField, BitVec.getLsbD_append, BitVec.getLsbD_extractLsb']
  by_cases h : k < 8
  · simp [h]
  · by_cases h' : k - 8 < 4
    · simp [h, h', show 8 + (k - 8) = k by omega]
    · simp [h, h', show k - 8 - 4 < 4 by omega, show 12 + (k - 8 - 4) = k by omega]

theorem encodeRRN_fields (w : Word) : encodeRRN (opField w) (xReg w) (yReg w) (nField w) = w := by
  simp only [encodeRRN, xReg, yReg, nibbleOfReg_regOfNibble]
  apply BitVec.eq_of_getLsbD_eq
  intro k hk
  simp only [opField, xField, yField, nField, BitVec.getLsbD_append, BitVec.getLsbD_extractLsb']
  by_cases h : k < 4
  · simp [h]
  · by_cases h' : k - 4 < 4
    · simp [h, h', show 4 + (k - 4) = k by omega]
    · by_cases h'' : k - 4 - 4 < 4
      · simp [h, h', h'', show 8 + (k - 4 - 4) = k by omega]
      · simp [h, h', h'', show k - 4 - 4 - 4 < 4 by omega, show 12 + (k - 4 - 4 - 4) = k by omega]

/-! ### What a row of the table says of the fields -/

/-- Every word is the word its four nibbles make. -/
theorem word_ext {w p : Word} (h1 : opField w = opField p) (h2 : xField w = xField p) (h3 : yField w = yField p)
    (h4 : nField w = nField p) : w = p := by
  rw [← encodeRRN_fields w, ← encodeRRN_fields p, xReg, xReg, yReg, yReg, h1, h2, h3, h4]

/-- The nibbles of a masked word. -/
theorem opField_and (w m : Word) : opField (w &&& m) = opField w &&& opField m := by
  apply BitVec.eq_of_getLsbD_eq
  intro k hk
  simp [opField, hk]

theorem xField_and (w m : Word) : xField (w &&& m) = xField w &&& xField m := by
  apply BitVec.eq_of_getLsbD_eq
  intro k hk
  simp [xField, hk]

theorem yField_and (w m : Word) : yField (w &&& m) = yField w &&& yField m := by
  apply BitVec.eq_of_getLsbD_eq
  intro k hk
  simp [yField, hk]

theorem nField_and (w m : Word) : nField (w &&& m) = nField w &&& nField m := by
  apply BitVec.eq_of_getLsbD_eq
  intro k hk
  simp [nField, hk]

/-- A row covers a word exactly when it does so nibble by nibble (R87). -/
theorem covers_iff (r : OpcodeRow) (w : Word) : r.covers w = true ↔
    opField w &&& opField r.mask = opField r.pattern ∧ xField w &&& xField r.mask = xField r.pattern ∧
      yField w &&& yField r.mask = yField r.pattern ∧ nField w &&& nField r.mask = nField r.pattern := by
  simp only [OpcodeRow.covers, beq_iff_eq]
  constructor
  · rintro h
    rw [← h]
    exact ⟨(opField_and _ _).symm, (xField_and _ _).symm, (yField_and _ _).symm, (nField_and _ _).symm⟩
  · rintro ⟨h1, h2, h3, h4⟩
    exact word_ext ((opField_and _ _).trans h1) ((xField_and _ _).trans h2) ((yField_and _ _).trans h3)
      ((nField_and _ _).trans h4)

theorem nibble_and_ones (n : Nibble) : n &&& 0xF = n := by revert n; decide

theorem nibble_and_zero (n : Nibble) : n &&& 0x0 = 0 := by revert n; decide

/-- Two words with the same low byte have the same two low nibbles, and conversely. -/
theorem nnField_eq_iff (w p : Word) : nnField w = nnField p ↔ yField w = yField p ∧ nField w = nField p := by
  constructor
  · intro h
    refine ⟨?_, ?_⟩
    · apply BitVec.eq_of_getLsbD_eq
      intro k hk
      have := congrArg (·.getLsbD (4 + k)) h
      simpa [nnField, yField, hk, show 4 + k < 8 by omega] using this
    · apply BitVec.eq_of_getLsbD_eq
      intro k hk
      have := congrArg (·.getLsbD k) h
      simpa [nnField, nField, hk, show k < 8 by omega] using this
  · rintro ⟨hy, hn⟩
    apply BitVec.eq_of_getLsbD_eq
    intro k hk
    by_cases h : k < 4
    · have := congrArg (·.getLsbD k) hn
      simpa [nnField, nField, hk, h] using this
    · have := congrArg (·.getLsbD (k - 4)) hy
      simpa [nnField, yField, hk, show k - 4 < 4 by omega, show 4 + (k - 4) = k by omega] using this

/-- A row of format A or RI or RRN: the high nibble decides (R83, R87). -/
theorem covers_op (w p : Word) (h : xField p = 0 ∧ yField p = 0 ∧ nField p = 0) :
    OpcodeRow.covers ⟨0xF000, p⟩ w = true ↔ opField w = opField p := by
  rw [covers_iff]
  simp only [show opField (0xF000 : Word) = 0xF by decide, show xField (0xF000 : Word) = 0 by decide,
    show yField (0xF000 : Word) = 0 by decide, show nField (0xF000 : Word) = 0 by decide, nibble_and_ones, nibble_and_zero, h,
    and_true]

/-- A row of format RR: the high and the low nibble decide (R83, R87). -/
theorem covers_op_n (w p : Word) (h : xField p = 0 ∧ yField p = 0) :
    OpcodeRow.covers ⟨0xF00F, p⟩ w = true ↔ opField w = opField p ∧ nField w = nField p := by
  rw [covers_iff]
  simp only [show opField (0xF00F : Word) = 0xF by decide, show xField (0xF00F : Word) = 0 by decide,
    show yField (0xF00F : Word) = 0 by decide, show nField (0xF00F : Word) = 0xF by decide, nibble_and_ones, nibble_and_zero, h,
    true_and]

/-- A row of format R: the high nibble and the low byte decide (R83, R87). -/
theorem covers_op_nn (w p : Word) (h : xField p = 0) :
    OpcodeRow.covers ⟨0xF0FF, p⟩ w = true ↔ opField w = opField p ∧ nnField w = nnField p := by
  rw [covers_iff, nnField_eq_iff]
  simp only [show opField (0xF0FF : Word) = 0xF by decide, show xField (0xF0FF : Word) = 0 by decide,
    show yField (0xF0FF : Word) = 0xF by decide, show nField (0xF0FF : Word) = 0xF by decide, nibble_and_ones, nibble_and_zero,
    h, true_and]

/-- A row of format FIXED: the whole word decides (R83, R86). -/
theorem covers_fixed (w p : Word) : OpcodeRow.covers ⟨0xFFFF, p⟩ w = true ↔ w = p := by
  rw [covers_iff]
  simp only [show opField (0xFFFF : Word) = 0xF by decide, show xField (0xFFFF : Word) = 0xF by decide,
    show yField (0xFFFF : Word) = 0xF by decide, show nField (0xFFFF : Word) = 0xF by decide, nibble_and_ones]
  constructor
  · rintro ⟨h1, h2, h3, h4⟩; exact word_ext h1 h2 h3 h4
  · rintro rfl; simp

/-! ### Table and host entry point -/

/-- "The rows are disjoint: no word matches two rows" (R87): two rows differ in a bit that both fix. -/
theorem opcodeTable_disjoint :
    opcodeTable.Pairwise (fun r q => r.pattern &&& (r.mask &&& q.mask) ≠ q.pattern &&& (r.mask &&& q.mask)) := by
  decide

/-- The host's entry point is the word decoder, on a word of 16 bits. -/
theorem decodeTableWord_eq (w : Word) :
    decodeTableWord 16 w.toNat = (match decodeWord w with | .ok i => some i | .error _ => none) := by
  have hw : tableWord 16 w.toNat = w := by
    apply BitVec.eq_of_toNat_eq
    have := w.isLt
    simp only [tableWord, BitVec.toNat_ofNat]
    omega
  have hb : wordOfBytes (highByte w) (lowByte w) = w := by
    apply BitVec.eq_of_getLsbD_eq
    intro k hk
    simp only [wordOfBytes, highByte, lowByte, BitVec.getLsbD_append, BitVec.getLsbD_extractLsb']
    by_cases h : k < 8
    · simp [h]
    · simp [h, show k - 8 < 8 by omega, show 8 + (k - 8) = k by omega]
  simp only [decodeTableWord, hw, decodeBytes, hb]
  cases decodeWord w <;> rfl

end Sys2Proof
end

