-- ==== Sys2Proof/Laws/Display.lean ====
section
/-! SUPPORT. What drawing does, pixel by pixel: one byte, one sprite row, a whole sprite. Provers cite these and never unfold
the byte-by-byte loop. -/

namespace Sys2Proof.Machine

/-! ### Bytes and pixels of the framebuffer -/

theorem fbIndex_eq_iff (r c r' c' : Nat) : fbIndex r c = fbIndex r' c' ↔ r % 32 = r' % 32 ∧ c % 8 = c' % 8 := by
  simp only [fbIndex, Fin.mk.injEq]; omega

/-- Every byte index is that of a row and a column (R30). -/
theorem fbIndex_surjective (b : Fin 256) : fbIndex (b.val / 8) (b.val % 8) = b := by
  apply Fin.ext
  simp only [fbIndex]
  omega

theorem Drawing.xorByte_fb (d : Drawing) (b k : Fin 256) (m : Byte) :
    (d.xorByte b m).fb[k] = if k = b then d.fb[b] ^^^ m else d.fb[k] := by
  simp only [Drawing.xorByte, Fin.getElem_fin, Vector.getElem_set, Fin.ext_iff, eq_comm]

/-- A byte collides with a mask exactly when they share a 1 bit (R175). -/
theorem collides_iff (old m : Byte) : collides old m = true ↔ ∃ k < 8, old.getLsbD k = true ∧ m.getLsbD k = true := by
  simp only [collides, bne_iff_ne, ne_eq]
  constructor
  · intro h
    by_contra hc
    apply h
    apply BitVec.eq_of_getLsbD_eq
    intro k hk
    by_contra hb
    exact hc ⟨k, hk, by simpa using hb⟩
  · rintro ⟨k, hk, h1, h2⟩ h
    have := congrArg (·.getLsbD k) h
    simp [h1, h2] at this

/-- Two framebuffers with the same pixels are the same (R30). -/
theorem framebuffer_ext (f g : Framebuffer) (h : ∀ px py, px < 64 → py < 32 → pixel f px py = pixel g px py) : f = g := by
  apply Vector.ext
  intro b hb
  apply BitVec.eq_of_getLsbD_eq
  intro k hk
  have := h (8 * (b % 8) + (7 - k)) (b / 8) (by omega) (by omega)
  simp only [pixel, Fin.getElem_fin, fbIndex] at this
  simp only [show 8 * (b / 8 % 32) + (8 * (b % 8) + (7 - k)) / 8 % 8 = b by omega,
    show 7 - (8 * (b % 8) + (7 - k)) % 8 = k by omega] at this
  exact this

/-! ### One byte -/

/-- The bit a mask for byte column `col` of row `row` has for a pixel. -/
def maskBit (row col : Nat) (m : Byte) (px py : Nat) : Bool :=
  decide (py % 32 = row % 32) && decide (px / 8 % 8 = col % 8) && m.getLsbD (7 - px % 8)

theorem Drawing.pixel_xorByte (d : Drawing) (row col px py : Nat) (m : Byte) :
    pixel (d.xorByte (fbIndex row col) m).fb px py = Bool.xor (pixel d.fb px py) (maskBit row col m px py) := by
  simp only [pixel, Drawing.xorByte_fb, fbIndex_eq_iff, maskBit]
  by_cases h : py % 32 = row % 32 ∧ px / 8 % 8 = col % 8
  · have he : fbIndex row col = fbIndex py (px / 8) := (fbIndex_eq_iff _ _ _ _).mpr ⟨h.1.symm, h.2.symm⟩
    simp [h, he]
  · rw [if_neg h]
    rcases not_and_or.mp h with h | h <;> simp [h]

theorem Drawing.coll_xorByte (d : Drawing) (row col : Nat) (m : Byte) :
    (d.xorByte (fbIndex row col) m).coll = true ↔
      d.coll = true ∨ ∃ px py, px < 64 ∧ py < 32 ∧ pixel d.fb px py = true ∧ maskBit row col m px py = true := by
  simp only [Drawing.xorByte, Bool.or_eq_true, collides_iff]
  refine or_congr_right ⟨?_, ?_⟩
  · rintro ⟨k, hk, h1, h2⟩
    refine ⟨8 * (col % 8) + (7 - k), row % 32, by omega, by omega, ?_, ?_⟩
    · have he : fbIndex (row % 32) ((8 * (col % 8) + (7 - k)) / 8) = fbIndex row col :=
        (fbIndex_eq_iff _ _ _ _).mpr ⟨by omega, by omega⟩
      simp only [pixel, he, show 7 - (8 * (col % 8) + (7 - k)) % 8 = k by omega]
      exact h1
    · simp only [maskBit, show (8 * (col % 8) + (7 - k)) / 8 % 8 = col % 8 by omega,
        show 7 - (8 * (col % 8) + (7 - k)) % 8 = k by omega, h2]
      simp
  · rintro ⟨px, py, hx, hy, h1, h2⟩
    simp only [maskBit, Bool.and_eq_true, decide_eq_true_eq] at h2
    refine ⟨7 - px % 8, by omega, ?_, h2.2⟩
    have he : fbIndex py (px / 8) = fbIndex row col := (fbIndex_eq_iff _ _ _ _).mpr h2.1
    simpa [pixel, he] using h1

/-! ### One sprite row -/

/-- The bit a sprite row `p` on framebuffer row `row`, leftmost pixel at column `x`, has for a pixel (R173). -/
def rowBit (x row : Nat) (p : Byte) (px py : Nat) : Bool :=
  decide (py % 32 = row % 32) && decide ((px + 64 - x) % 64 < 8) && p.getLsbD (7 - (px + 64 - x) % 64)

theorem maskBit_aligned (x row : Nat) (p : Byte) (px py : Nat) (hx : x < 64) (hp : px < 64) (hs : x % 8 = 0) :
    maskBit row (x / 8) p px py = rowBit x row p px py := by
  simp only [maskBit, rowBit]
  by_cases h : px / 8 % 8 = x / 8 % 8
  · simp [h, show (px + 64 - x) % 64 = px % 8 by omega, show px % 8 < 8 by omega]
  · simp [h, show ¬ (px + 64 - x) % 64 < 8 by omega]

theorem maskBit_left (x row : Nat) (p : Byte) (px py : Nat) (hx : x < 64) (hp : px < 64) (h : px / 8 % 8 = x / 8 % 8) :
    maskBit row (x / 8) (leftPart x p) px py = rowBit x row p px py := by
  simp only [maskBit, rowBit, leftPart, BitVec.getLsbD_ushiftRight]
  by_cases hs : x % 8 ≤ px % 8
  · simp [h, show (px + 64 - x) % 64 = px % 8 - x % 8 by omega, show px % 8 - x % 8 < 8 by omega,
      show x % 8 + (7 - px % 8) = 7 - (px % 8 - x % 8) by omega]
  · have : ¬ (px + 64 - x) % 64 < 8 := by omega
    simp [h, this, show 8 ≤ x % 8 + (7 - px % 8) by omega]

theorem maskBit_right (x row : Nat) (p : Byte) (px py : Nat) (hx : x < 64) (hp : px < 64)
    (h : px / 8 % 8 = (x / 8 + 1) % 8) :
    maskBit row (x / 8 + 1) (rightPart x p) px py = rowBit x row p px py := by
  simp only [maskBit, rowBit, rightPart, BitVec.getLsbD_shiftLeft]
  by_cases hr : px % 8 < x % 8
  · simp [h, show (px + 64 - x) % 64 = 8 - x % 8 + px % 8 by omega, show 8 - x % 8 + px % 8 < 8 by omega,
      show ¬ 7 - px % 8 < 8 - x % 8 by omega, show 7 - px % 8 < 8 by omega,
      show 7 - px % 8 - (8 - x % 8) = 7 - (8 - x % 8 + px % 8) by omega]
  · have : ¬ (px + 64 - x) % 64 < 8 := by omega
    simp [h, this, show 7 - px % 8 < 8 - x % 8 by omega]

/-- A pixel in neither byte column of the row has no bit. -/
theorem rowBit_elsewhere (x row : Nat) (p : Byte) (px py : Nat) (hx : x < 64) (hp : px < 64)
    (h1 : px / 8 % 8 ≠ x / 8 % 8) (h2 : px / 8 % 8 ≠ (x / 8 + 1) % 8) : rowBit x row p px py = false := by
  have : ¬ (px + 64 - x) % 64 < 8 := by omega
  simp [rowBit, this]

theorem maskBit_other_column (row col : Nat) (m : Byte) (px py : Nat) (h : px / 8 % 8 ≠ col % 8) :
    maskBit row col m px py = false := by
  simp [maskBit, h]

/-- The two masks of a row that is not byte-aligned make up the row, and no pixel is in both (R173, R175). -/
theorem maskBit_split (x row : Nat) (p : Byte) (px py : Nat) (hx : x < 64) (hp : px < 64) :
    Bool.xor (maskBit row (x / 8) (leftPart x p) px py) (maskBit row (x / 8 + 1) (rightPart x p) px py) =
        rowBit x row p px py ∧
      (maskBit row (x / 8) (leftPart x p) px py = true → maskBit row (x / 8 + 1) (rightPart x p) px py = false) := by
  by_cases h : px / 8 % 8 = x / 8 % 8
  · have h' : px / 8 % 8 ≠ (x / 8 + 1) % 8 := by omega
    rw [maskBit_other_column row (x / 8 + 1) _ px py h', maskBit_left x row p px py hx hp h]
    simp
  · rw [maskBit_other_column row (x / 8) _ px py h]
    by_cases h' : px / 8 % 8 = (x / 8 + 1) % 8
    · rw [maskBit_right x row p px py hx hp h']; simp
    · rw [maskBit_other_column row (x / 8 + 1) _ px py h', rowBit_elsewhere x row p px py hx hp h h']; simp

/-- A sprite row toggles exactly its pixels (R172, R173). -/
theorem Drawing.pixel_row (d : Drawing) (x row px py : Nat) (p : Byte) (hx : x < 64) (hp : px < 64) :
    pixel (d.row x row p).fb px py = Bool.xor (pixel d.fb px py) (rowBit x row p px py) := by
  unfold Drawing.row
  split
  · rename_i hs
    rw [Drawing.pixel_xorByte, maskBit_aligned x row p px py hx hp hs]
  · rename_i hs
    rw [Drawing.pixel_xorByte, Drawing.pixel_xorByte, Bool.xor_assoc, (maskBit_split x row p px py hx hp).1]

/-- A sprite row collides exactly when one of its pixels was set (R175). -/
theorem Drawing.coll_row (d : Drawing) (x row : Nat) (p : Byte) (hx : x < 64) :
    (d.row x row p).coll = true ↔
      d.coll = true ∨ ∃ px py, px < 64 ∧ py < 32 ∧ pixel d.fb px py = true ∧ rowBit x row p px py = true := by
  unfold Drawing.row
  split
  · rename_i hs
    rw [Drawing.coll_xorByte]
    refine or_congr_right ⟨?_, ?_⟩
    · rintro ⟨px, py, hp, hy, h1, h2⟩
      exact ⟨px, py, hp, hy, h1, by rwa [← maskBit_aligned x row p px py hx hp hs]⟩
    · rintro ⟨px, py, hp, hy, h1, h2⟩
      exact ⟨px, py, hp, hy, h1, by rwa [maskBit_aligned x row p px py hx hp hs]⟩
  · rename_i hs
    rw [Drawing.coll_xorByte, Drawing.coll_xorByte, or_assoc]
    refine or_congr_right ⟨?_, ?_⟩
    · rintro (⟨px, py, hp, hy, h1, h2⟩ | ⟨px, py, hp, hy, h1, h2⟩)
      · have := maskBit_split x row p px py hx hp
        exact ⟨px, py, hp, hy, h1, by rw [← this.1, h2, this.2 h2]; rfl⟩
      · have := maskBit_split x row p px py hx hp
        have hl : maskBit row (x / 8) (leftPart x p) px py = false := by
          by_contra hl
          rw [this.2 (by simpa using hl)] at h2
          cases h2
        rw [Drawing.pixel_xorByte, hl, Bool.xor_false] at h1
        exact ⟨px, py, hp, hy, h1, by rw [← this.1, hl, h2]; rfl⟩
    · rintro ⟨px, py, hp, hy, h1, h2⟩
      have := maskBit_split x row p px py hx hp
      by_cases hl : maskBit row (x / 8) (leftPart x p) px py = true
      · exact .inl ⟨px, py, hp, hy, h1, hl⟩
      · have hl : maskBit row (x / 8) (leftPart x p) px py = false := by simpa using hl
        refine .inr ⟨px, py, hp, hy, ?_, ?_⟩
        · rw [Drawing.pixel_xorByte, hl, Bool.xor_false, h1]
        · rw [hl, Bool.false_xor] at this; rw [this.1, h2]

/-! ### A whole sprite -/

/-- The bit the rows `ps` of a sprite with its origin at (`x`, `row`) have for a pixel (R172 to R174). -/
def rowsBit (x row : Nat) (ps : List Byte) (px py : Nat) : Bool :=
  decide ((px + 64 - x) % 64 < 8) &&
    (ps.getD ((py + 32 - row % 32) % 32) 0).getLsbD (7 - (px + 64 - x) % 64)

theorem rowsBit_nil (x row px py : Nat) : rowsBit x row [] px py = false := by
  simp [rowsBit]

/-- The first row and the rest: no pixel is in both, since a sprite has fewer than 32 rows (R175). -/
theorem rowsBit_cons (x row px py : Nat) (p : Byte) (ps : List Byte) (hl : ps.length ≤ 31) (hy : py < 32) :
    rowsBit x row (p :: ps) px py = Bool.xor (rowBit x row p px py) (rowsBit x (row + 1) ps px py) ∧
      (rowBit x row p px py = true → rowsBit x (row + 1) ps px py = false) := by
  by_cases h : py % 32 = row % 32
  · have h0 : (py + 32 - row % 32) % 32 = 0 := by omega
    have h1 : (py + 32 - (row + 1) % 32) % 32 = 31 := by omega
    have h31 : ps[31]?.getD 0#8 = 0#8 := by simp [List.getElem?_eq_none hl]
    simp [rowsBit, rowBit, h, h0, h1, h31]
  · have h0 : (py + 32 - row % 32) % 32 = (py + 32 - (row + 1) % 32) % 32 + 1 := by omega
    simp [rowsBit, rowBit, h, h0]

/-- A sprite toggles exactly its pixels (R172 to R174). -/
theorem Drawing.pixel_rows (d : Drawing) (x row px py : Nat) (ps : List Byte) (hl : ps.length ≤ 32) (hx : x < 64)
    (hp : px < 64) (hy : py < 32) :
    pixel (d.rows x row ps).fb px py = Bool.xor (pixel d.fb px py) (rowsBit x row ps px py) := by
  induction ps generalizing d row with
  | nil => simp [Drawing.rows, rowsBit_nil]
  | cons p ps ih =>
    have hl' : ps.length ≤ 31 := by simp only [List.length_cons] at hl; omega
    rw [Drawing.rows, ih _ _ (by omega), Drawing.pixel_row _ _ _ _ _ _ hx hp, Bool.xor_assoc,
      (rowsBit_cons x row px py p ps hl' hy).1]

/-- A sprite collides exactly when one of its pixels was set before it was drawn (R175). -/
theorem Drawing.coll_rows (d : Drawing) (x row : Nat) (ps : List Byte) (hl : ps.length ≤ 32) (hx : x < 64) :
    (d.rows x row ps).coll = true ↔
      d.coll = true ∨ ∃ px py, px < 64 ∧ py < 32 ∧ pixel d.fb px py = true ∧ rowsBit x row ps px py = true := by
  induction ps generalizing d row with
  | nil => simp [Drawing.rows, rowsBit_nil]
  | cons p ps ih =>
    have hl' : ps.length ≤ 31 := by simp only [List.length_cons] at hl; omega
    rw [Drawing.rows, ih _ _ (by omega), Drawing.coll_row _ _ _ _ hx, or_assoc]
    refine or_congr_right ⟨?_, ?_⟩
    · rintro (⟨px, py, hp, hy, h1, h2⟩ | ⟨px, py, hp, hy, h1, h2⟩)
      · have := rowsBit_cons x row px py p ps hl' hy
        exact ⟨px, py, hp, hy, h1, by rw [this.1, h2, this.2 h2]; rfl⟩
      · have := rowsBit_cons x row px py p ps hl' hy
        have hr : rowBit x row p px py = false := by
          by_contra hr
          rw [this.2 (by simpa using hr)] at h2
          cases h2
        rw [Drawing.pixel_row _ _ _ _ _ _ hx hp, hr, Bool.xor_false] at h1
        exact ⟨px, py, hp, hy, h1, by rw [this.1, hr, h2]; rfl⟩
    · rintro ⟨px, py, hp, hy, h1, h2⟩
      have := rowsBit_cons x row px py p ps hl' hy
      by_cases hr : rowBit x row p px py = true
      · exact .inl ⟨px, py, hp, hy, h1, hr⟩
      · have hr : rowBit x row p px py = false := by simpa using hr
        refine .inr ⟨px, py, hp, hy, ?_, ?_⟩
        · rw [Drawing.pixel_row _ _ _ _ _ _ hx hp, hr, Bool.xor_false, h1]
        · rw [this.1, hr, Bool.false_xor] at h2; exact h2

/-- Nothing is drawn when the origin is off the grid (R176). -/
theorem State.drawSprite_off_grid (s : State) (x y : Byte) (n : Nat) (h : 64 ≤ x.toNat ∨ 32 ≤ y.toNat) :
    s.drawSprite x y n = { fb := s.fb, coll := false } := by
  rw [State.drawSprite, if_neg (by omega)]

/-- On the grid, the sprite's rows are drawn from the origin's row on (R172). -/
theorem State.drawSprite_on_grid (s : State) (x y : Byte) (n : Nat) (hx : x.toNat < 64) (hy : y.toNat < 32) :
    s.drawSprite x y n =
      Drawing.rows { fb := s.fb, coll := false } x.toNat y.toNat (s.mem.readBytes s.i.toNat n) := by
  rw [State.drawSprite, if_pos ⟨hx, hy⟩]

end Sys2Proof.Machine
end

