-- ==== Sys2Proof/Laws/Memory.lean ====
section
/-! SUPPORT. What the memory operations do: a read after a write, the canonical form kept by every operation, and the same for
blocks and words. Provers cite these and never unfold the cell lists. -/

namespace Sys2Proof.Machine

/-! ### Cell lists -/

theorem lookupCell_insertCell (a c : Nat) (b : Byte) (l : List Host.Cell) :
    lookupCell c (insertCell a b l) = if c = a then some b else lookupCell c l := by
  induction l with
  | nil => simp [insertCell, lookupCell, eq_comm]
  | cons hd tl ih =>
    obtain ⟨d, x⟩ := hd
    simp only [insertCell]
    split
    · simp only [lookupCell, eq_comm]
    · split
      · rename_i h; subst h
        by_cases hc : c = a
        · simp [lookupCell, hc]
        · simp [lookupCell, hc, Ne.symm hc]
      · rename_i h1 h2
        simp only [lookupCell, ih]
        by_cases hd : d = c
        · subst hd; simp [Ne.symm h2]
        · simp [hd]

theorem lookupCell_eraseCell (a c : Nat) (l : List Host.Cell) :
    lookupCell c (eraseCell a l) = if c = a then none else lookupCell c l := by
  induction l with
  | nil => simp [eraseCell, lookupCell]
  | cons hd tl ih =>
    obtain ⟨d, x⟩ := hd
    simp only [eraseCell]
    split
    · rename_i hda; subst hda
      by_cases hc : c = d
      · subst hc; simp [ih]
      · simp [ih, lookupCell, hc, Ne.symm hc]
    · rename_i hda
      simp only [lookupCell, ih]
      by_cases hd : d = c
      · subst hd; simp [hda]
      · simp [hd]

theorem mem_insertCell (a : Nat) (b : Byte) (l : List Host.Cell) (c : Host.Cell) (h : c ∈ insertCell a b l) :
    c = (a, b) ∨ c ∈ l := by
  induction l with
  | nil => simpa [insertCell] using h
  | cons hd tl ih =>
    obtain ⟨d, x⟩ := hd
    simp only [insertCell] at h
    split at h
    · simpa using h
    · split at h
      · rcases List.mem_cons.mp h with h | h
        · exact .inl h
        · exact .inr (by simp [h])
      · rcases List.mem_cons.mp h with h | h
        · exact .inr (by simp [h])
        · rcases ih h with h | h
          · exact .inl h
          · exact .inr (by simp [h])

theorem mem_eraseCell (a : Nat) (l : List Host.Cell) (c : Host.Cell) (h : c ∈ eraseCell a l) : c ∈ l := by
  induction l with
  | nil => simp [eraseCell] at h
  | cons hd tl ih =>
    obtain ⟨d, x⟩ := hd
    simp only [eraseCell] at h
    split at h
    · simp [ih h]
    · rcases List.mem_cons.mp h with h | h
      · simp [h]
      · simp [ih h]

theorem insertCell_rising (a : Nat) (b : Byte) (l : List Host.Cell) (h : l.Pairwise (fun c d => c.1 < d.1)) :
    (insertCell a b l).Pairwise (fun c d => c.1 < d.1) := by
  induction l with
  | nil => simp [insertCell]
  | cons hd tl ih =>
    obtain ⟨d, x⟩ := hd
    obtain ⟨hlt, htl⟩ := List.pairwise_cons.mp h
    simp only [insertCell]
    split
    · rename_i had
      refine List.pairwise_cons.mpr ⟨fun c hc => ?_, h⟩
      rcases List.mem_cons.mp hc with hc | hc
      · simpa [hc] using had
      · exact Nat.lt_trans had (hlt c hc)
    · split
      · rename_i hda; subst hda
        exact List.pairwise_cons.mpr ⟨hlt, htl⟩
      · rename_i h1 h2
        refine List.pairwise_cons.mpr ⟨fun c hc => ?_, ih htl⟩
        rcases mem_insertCell a b tl c hc with hc | hc
        · subst hc; show d < a; omega
        · exact hlt c hc

theorem eraseCell_rising (a : Nat) (l : List Host.Cell) (h : l.Pairwise (fun c d => c.1 < d.1)) :
    (eraseCell a l).Pairwise (fun c d => c.1 < d.1) := by
  induction l with
  | nil => simp [eraseCell]
  | cons hd tl ih =>
    obtain ⟨d, x⟩ := hd
    obtain ⟨hlt, htl⟩ := List.pairwise_cons.mp h
    simp only [eraseCell]
    split
    · exact ih htl
    · exact List.pairwise_cons.mpr ⟨fun c hc => hlt c (mem_eraseCell a tl c hc), ih htl⟩

/-! ### The canonical form -/

/-- What the canonical form says. -/
theorem Memory.wf_iff (m : Memory) : m.wf = true ↔
    m.cells.Pairwise (fun c d => c.1 < d.1) ∧ ∀ c ∈ m.cells, c.1 < 4096 ∧ c.2 ≠ m.unlisted c.1 := by
  simp [Memory.wf]

/-- Nothing listed is canonical: the memory after reset. -/
theorem Memory.wf_empty (font : Vector Byte 80) : Memory.wf { font := font, cells := [] } = true := by
  simp [Memory.wf]

@[simp] theorem Memory.write_font (m : Memory) (a : Nat) (b : Byte) : (m.write a b).font = m.font := by
  simp only [Memory.write]; split <;> rfl

theorem Memory.unlisted_of_font {m m' : Memory} (h : m'.font = m.font) (a : Nat) : m'.unlisted a = m.unlisted a := by
  simp only [Memory.unlisted, h]

@[simp] theorem Memory.write_unlisted (m : Memory) (a c : Nat) (b : Byte) : (m.write a b).unlisted c = m.unlisted c :=
  Memory.unlisted_of_font (Memory.write_font m a b) c

/-- A write keeps the canonical form. -/
theorem Memory.write_wf (m : Memory) (a : Nat) (b : Byte) (h : m.wf = true) : (m.write a b).wf = true := by
  obtain ⟨hp, hc⟩ := m.wf_iff.mp h
  refine (Memory.wf_iff _).mpr ?_
  simp only [Memory.write_unlisted]
  simp only [Memory.write]
  split
  · rename_i ha
    split
    · exact ⟨eraseCell_rising a _ hp, fun c hm => hc c (mem_eraseCell a _ c hm)⟩
    · rename_i hb
      refine ⟨insertCell_rising a b _ hp, fun c hm => ?_⟩
      rcases mem_insertCell a b _ c hm with hm | hm
      · subst hm; exact ⟨ha, hb⟩
      · exact hc c hm
  · exact ⟨hp, hc⟩

/-! ### Reading and writing -/

/-- A read after a write: the byte written at its address, and every other address as before (R60, R61). -/
theorem Memory.read_write (m : Memory) (a c : Nat) (b : Byte) (ha : a < 4096) :
    (m.write a b).read c = if c = a then b else m.read c := by
  simp only [Memory.read, Memory.write_unlisted]
  simp only [Memory.write, if_pos ha]
  split
  · rename_i hb
    rw [lookupCell_eraseCell]
    by_cases hc : c = a
    · subst hc; simp [hb]
    · simp [hc]
  · rw [lookupCell_insertCell]
    by_cases hc : c = a <;> simp [hc]

/-- A write leaves every other address alone. -/
theorem Memory.read_write_other (m : Memory) {a c : Nat} (b : Byte) (h : c ≠ a) : (m.write a b).read c = m.read c := by
  by_cases ha : a < 4096
  · simp [Memory.read_write m a c b ha, h]
  · simp [Memory.write, ha]

/-- Writing the reset contents back unlists the address: equal memories are equal data. -/
theorem Memory.write_unlisted_value (m : Memory) (a : Nat) (ha : a < 4096) :
    lookupCell a (m.write a (m.unlisted a)).cells = none := by
  simp [Memory.write, ha, lookupCell_eraseCell]

/-! ### Blocks and words -/

@[simp] theorem Memory.writeBytes_font (m : Memory) (a : Nat) (bs : List Byte) : (m.writeBytes a bs).font = m.font := by
  induction bs generalizing m a with
  | nil => rfl
  | cons b bs ih => simp [Memory.writeBytes, ih]

/-- A block write keeps the canonical form. -/
theorem Memory.writeBytes_wf (m : Memory) (a : Nat) (bs : List Byte) (h : m.wf = true) : (m.writeBytes a bs).wf = true := by
  induction bs generalizing m a with
  | nil => exact h
  | cons b bs ih => exact ih (m.write a b) (a + 1) (Memory.write_wf m a b h)

/-- A block write leaves every address outside its block alone. -/
theorem Memory.read_writeBytes_outside (m : Memory) (a c : Nat) (bs : List Byte) (h : c < a ∨ a + bs.length ≤ c) :
    (m.writeBytes a bs).read c = m.read c := by
  induction bs generalizing m a with
  | nil => rfl
  | cons b bs ih =>
    simp only [List.length_cons] at h
    rw [Memory.writeBytes, ih _ _ (by omega), Memory.read_write_other]
    omega

/-- The k-th byte of a block that lies in memory is read back at its address. -/
theorem Memory.read_writeBytes_inside (m : Memory) (a k : Nat) (bs : List Byte) (b : Byte) (hb : bs[k]? = some b)
    (ha : a + bs.length ≤ 4096) : (m.writeBytes a bs).read (a + k) = b := by
  induction bs generalizing m a k with
  | nil => simp at hb
  | cons c bs ih =>
    simp only [List.length_cons] at ha
    cases k with
    | zero =>
      obtain rfl : c = b := by simpa using hb
      rw [Memory.writeBytes, Memory.read_writeBytes_outside _ _ _ _ (by omega), Memory.read_write _ _ _ _ (by omega)]
      simp
    | succ k =>
      rw [Memory.writeBytes, show a + (k + 1) = a + 1 + k by omega]
      exact ih _ _ _ (by simpa using hb) (by omega)

@[simp] theorem Memory.length_readBytes (m : Memory) (a n : Nat) : (m.readBytes a n).length = n := by
  induction n generalizing a with
  | zero => rfl
  | succ n ih => simp [Memory.readBytes, ih]

/-- The k-th byte of a block read. -/
theorem Memory.getElem_readBytes (m : Memory) (a n k : Nat) (h : k < n) : (m.readBytes a n)[k]? = some (m.read (a + k)) := by
  induction n generalizing a k with
  | zero => omega
  | succ n ih =>
    cases k with
    | zero => simp [Memory.readBytes]
    | succ k =>
      simp only [Memory.readBytes, List.getElem?_cons_succ]
      rw [ih _ _ (by omega), show a + 1 + k = a + (k + 1) by omega]

theorem wordOfBytes_bytes (w : Word) : wordOfBytes (highByte w) (lowByte w) = w := by
  apply BitVec.eq_of_getLsbD_eq
  intro k hk
  simp only [wordOfBytes, highByte, lowByte, BitVec.getLsbD_append, BitVec.getLsbD_extractLsb']
  by_cases h : k < 8
  · simp [h]
  · simp [h, show k - 8 < 8 by omega, show 8 + (k - 8) = k by omega]

/-- A word written in memory is the word fetched there (R52, R63). -/
theorem Memory.readWord_writeWord (m : Memory) (a : Nat) (w : Word) (h : a + 2 ≤ 4096) :
    (m.writeWord a w).readWord a = w := by
  have h0 := Memory.read_writeBytes_inside m a 0 [highByte w, lowByte w] _ rfl (by simpa using h)
  have h1 := Memory.read_writeBytes_inside m a 1 [highByte w, lowByte w] _ rfl (by simpa using h)
  simp only [Memory.readWord, Memory.writeWord, Nat.add_zero] at h0 h1 ⊢
  rw [h0, h1, wordOfBytes_bytes]

end Sys2Proof.Machine
end

