-- ==== Sys2Proof/Laws/PerInstr.lean ====
section
/-! SUPPORT. The family `TableRow`, one lemma an instruction: its encoding, whatever its operands, falls under its own row of
the opcode table (R85, R87), so no operand field reaches into the bits a row fixes. -/

namespace Sys2Proof.Laws.TableRow

/-- The instruction's row is in the opcode table and covers its encoding (R87). -/
def Statement (i : Instr) : Prop := i.row ∈ opcodeTable ∧ i.row.covers (encode i) = true

theorem cls : Statement .cls :=
  ⟨by decide, by decide⟩

theorem ret : Statement .ret :=
  ⟨by decide, by decide⟩

theorem jp (nnn : Addr) : Statement (.jp nnn) :=
  ⟨by simp [opcodeTable, Instr.row], (covers_op _ _ (by decide)).mpr (by simp [encode]; decide)⟩

theorem call (nnn : Addr) : Statement (.call nnn) :=
  ⟨by simp [opcodeTable, Instr.row], (covers_op _ _ (by decide)).mpr (by simp [encode]; decide)⟩

theorem seImm (x : Reg) (nn : Byte) : Statement (.seImm x nn) :=
  ⟨by simp [opcodeTable, Instr.row], (covers_op _ _ (by decide)).mpr (by simp [encode]; decide)⟩

theorem sneImm (x : Reg) (nn : Byte) : Statement (.sneImm x nn) :=
  ⟨by simp [opcodeTable, Instr.row], (covers_op _ _ (by decide)).mpr (by simp [encode]; decide)⟩

theorem seReg (x y : Reg) : Statement (.seReg x y) :=
  ⟨by simp [opcodeTable, Instr.row], (covers_op_n _ _ (by decide)).mpr (by simp [encode]; decide)⟩

theorem ldImm (x : Reg) (nn : Byte) : Statement (.ldImm x nn) :=
  ⟨by simp [opcodeTable, Instr.row], (covers_op _ _ (by decide)).mpr (by simp [encode]; decide)⟩

theorem addImm (x : Reg) (nn : Byte) : Statement (.addImm x nn) :=
  ⟨by simp [opcodeTable, Instr.row], (covers_op _ _ (by decide)).mpr (by simp [encode]; decide)⟩

theorem ldReg (x y : Reg) : Statement (.ldReg x y) :=
  ⟨by simp [opcodeTable, Instr.row], (covers_op_n _ _ (by decide)).mpr (by simp [encode]; decide)⟩

theorem orReg (x y : Reg) : Statement (.orReg x y) :=
  ⟨by simp [opcodeTable, Instr.row], (covers_op_n _ _ (by decide)).mpr (by simp [encode]; decide)⟩

theorem andReg (x y : Reg) : Statement (.andReg x y) :=
  ⟨by simp [opcodeTable, Instr.row], (covers_op_n _ _ (by decide)).mpr (by simp [encode]; decide)⟩

theorem xorReg (x y : Reg) : Statement (.xorReg x y) :=
  ⟨by simp [opcodeTable, Instr.row], (covers_op_n _ _ (by decide)).mpr (by simp [encode]; decide)⟩

theorem addReg (x y : Reg) : Statement (.addReg x y) :=
  ⟨by simp [opcodeTable, Instr.row], (covers_op_n _ _ (by decide)).mpr (by simp [encode]; decide)⟩

theorem sub (x y : Reg) : Statement (.sub x y) :=
  ⟨by simp [opcodeTable, Instr.row], (covers_op_n _ _ (by decide)).mpr (by simp [encode]; decide)⟩

theorem shr (x y : Reg) : Statement (.shr x y) :=
  ⟨by simp [opcodeTable, Instr.row], (covers_op_n _ _ (by decide)).mpr (by simp [encode]; decide)⟩

theorem subn (x y : Reg) : Statement (.subn x y) :=
  ⟨by simp [opcodeTable, Instr.row], (covers_op_n _ _ (by decide)).mpr (by simp [encode]; decide)⟩

theorem shl (x y : Reg) : Statement (.shl x y) :=
  ⟨by simp [opcodeTable, Instr.row], (covers_op_n _ _ (by decide)).mpr (by simp [encode]; decide)⟩

theorem sneReg (x y : Reg) : Statement (.sneReg x y) :=
  ⟨by simp [opcodeTable, Instr.row], (covers_op_n _ _ (by decide)).mpr (by simp [encode]; decide)⟩

theorem ldI (nnn : Addr) : Statement (.ldI nnn) :=
  ⟨by simp [opcodeTable, Instr.row], (covers_op _ _ (by decide)).mpr (by simp [encode]; decide)⟩

theorem jpV0 (nnn : Addr) : Statement (.jpV0 nnn) :=
  ⟨by simp [opcodeTable, Instr.row], (covers_op _ _ (by decide)).mpr (by simp [encode]; decide)⟩

theorem rnd (x : Reg) (nn : Byte) : Statement (.rnd x nn) :=
  ⟨by simp [opcodeTable, Instr.row], (covers_op _ _ (by decide)).mpr (by simp [encode]; decide)⟩

theorem drw (x y : Reg) (n : Nibble) : Statement (.drw x y n) :=
  ⟨by simp [opcodeTable, Instr.row], (covers_op _ _ (by decide)).mpr (by simp [encode]; decide)⟩

theorem skp (x : Reg) : Statement (.skp x) :=
  ⟨by simp [opcodeTable, Instr.row], (covers_op_nn _ _ (by decide)).mpr (by simp [encode]; decide)⟩

theorem sknp (x : Reg) : Statement (.sknp x) :=
  ⟨by simp [opcodeTable, Instr.row], (covers_op_nn _ _ (by decide)).mpr (by simp [encode]; decide)⟩

theorem ldVxDt (x : Reg) : Statement (.ldVxDt x) :=
  ⟨by simp [opcodeTable, Instr.row], (covers_op_nn _ _ (by decide)).mpr (by simp [encode]; decide)⟩

theorem ldVxK (x : Reg) : Statement (.ldVxK x) :=
  ⟨by simp [opcodeTable, Instr.row], (covers_op_nn _ _ (by decide)).mpr (by simp [encode]; decide)⟩

theorem ldDtVx (x : Reg) : Statement (.ldDtVx x) :=
  ⟨by simp [opcodeTable, Instr.row], (covers_op_nn _ _ (by decide)).mpr (by simp [encode]; decide)⟩

theorem ldStVx (x : Reg) : Statement (.ldStVx x) :=
  ⟨by simp [opcodeTable, Instr.row], (covers_op_nn _ _ (by decide)).mpr (by simp [encode]; decide)⟩

theorem addI (x : Reg) : Statement (.addI x) :=
  ⟨by simp [opcodeTable, Instr.row], (covers_op_nn _ _ (by decide)).mpr (by simp [encode]; decide)⟩

theorem ldF (x : Reg) : Statement (.ldF x) :=
  ⟨by simp [opcodeTable, Instr.row], (covers_op_nn _ _ (by decide)).mpr (by simp [encode]; decide)⟩

theorem ldB (x : Reg) : Statement (.ldB x) :=
  ⟨by simp [opcodeTable, Instr.row], (covers_op_nn _ _ (by decide)).mpr (by simp [encode]; decide)⟩

theorem stRegs (x : Reg) : Statement (.stRegs x) :=
  ⟨by simp [opcodeTable, Instr.row], (covers_op_nn _ _ (by decide)).mpr (by simp [encode]; decide)⟩

theorem ldRegs (x : Reg) : Statement (.ldRegs x) :=
  ⟨by simp [opcodeTable, Instr.row], (covers_op_nn _ _ (by decide)).mpr (by simp [encode]; decide)⟩

end Sys2Proof.Laws.TableRow
end

