-- ==== Sys2Proof/Laws/State.lean ====
section
/-! SUPPORT. For each named update of the state, what each field holds after it: one lemma a field, true by `rfl`, so that no
later proof unfolds a record update. -/

namespace Sys2Proof.Machine

/-! ### The derived updates in terms of the plain ones -/

@[simp] theorem State.setVF_eq (s : State) (b : Bool) : s.setVF b = s.setV 15 (flagByte b) := rfl
@[simp] theorem State.advance_eq (s : State) : s.advance = s.setPc (s.pc + 2) := rfl
@[simp] theorem State.skipIf_eq (s : State) (c : Bool) : s.skipIf c = s.setPc (if c then s.pc + 4 else s.pc + 2) := rfl
@[simp] theorem State.raise_eq (s : State) (k : ExecutionFault) (o : Option Word) :
    s.raise k o = s.setStatus (.faulted k o s.pc) := rfl
@[simp] theorem State.halt_eq (s : State) (o : Word) : s.halt o = s.setStatus (.halted o s.pc) := rfl

/-! ### `setV` -/

@[simp] theorem State.setV_v (s : State) (r : Reg) (b : Byte) : (s.setV r b).v = s.v.set r.val b := rfl
@[simp] theorem State.setV_i (s : State) (r : Reg) (b : Byte) : (s.setV r b).i = s.i := rfl
@[simp] theorem State.setV_pc (s : State) (r : Reg) (b : Byte) : (s.setV r b).pc = s.pc := rfl
@[simp] theorem State.setV_mem (s : State) (r : Reg) (b : Byte) : (s.setV r b).mem = s.mem := rfl
@[simp] theorem State.setV_stack (s : State) (r : Reg) (b : Byte) : (s.setV r b).stack = s.stack := rfl
@[simp] theorem State.setV_sp (s : State) (r : Reg) (b : Byte) : (s.setV r b).sp = s.sp := rfl
@[simp] theorem State.setV_fb (s : State) (r : Reg) (b : Byte) : (s.setV r b).fb = s.fb := rfl
@[simp] theorem State.setV_dirty (s : State) (r : Reg) (b : Byte) : (s.setV r b).dirty = s.dirty := rfl
@[simp] theorem State.setV_dt (s : State) (r : Reg) (b : Byte) : (s.setV r b).dt = s.dt := rfl
@[simp] theorem State.setV_st (s : State) (r : Reg) (b : Byte) : (s.setV r b).st = s.st := rfl
@[simp] theorem State.setV_kp (s : State) (r : Reg) (b : Byte) : (s.setV r b).kp = s.kp := rfl
@[simp] theorem State.setV_status (s : State) (r : Reg) (b : Byte) : (s.setV r b).status = s.status := rfl
@[simp] theorem State.setV_loaded (s : State) (r : Reg) (b : Byte) : (s.setV r b).loaded = s.loaded := rfl
@[simp] theorem State.setV_phase (s : State) (r : Reg) (b : Byte) : (s.setV r b).phase = s.phase := rfl
@[simp] theorem State.setV_opcodesPerFrame (s : State) (r : Reg) (b : Byte) : (s.setV r b).opcodesPerFrame = s.opcodesPerFrame := rfl
@[simp] theorem State.setV_keyInputs (s : State) (r : Reg) (b : Byte) : (s.setV r b).keyInputs = s.keyInputs := rfl
@[simp] theorem State.setV_ticks (s : State) (r : Reg) (b : Byte) : (s.setV r b).ticks = s.ticks := rfl
@[simp] theorem State.setV_randInputs (s : State) (r : Reg) (b : Byte) : (s.setV r b).randInputs = s.randInputs := rfl
@[simp] theorem State.setV_draws (s : State) (r : Reg) (b : Byte) : (s.setV r b).draws = s.draws := rfl
@[simp] theorem State.setV_presents (s : State) (r : Reg) (b : Byte) : (s.setV r b).presents = s.presents := rfl

/-! ### `setI` -/

@[simp] theorem State.setI_v (s : State) (w : Word) : (s.setI w).v = s.v := rfl
@[simp] theorem State.setI_i (s : State) (w : Word) : (s.setI w).i = w := rfl
@[simp] theorem State.setI_pc (s : State) (w : Word) : (s.setI w).pc = s.pc := rfl
@[simp] theorem State.setI_mem (s : State) (w : Word) : (s.setI w).mem = s.mem := rfl
@[simp] theorem State.setI_stack (s : State) (w : Word) : (s.setI w).stack = s.stack := rfl
@[simp] theorem State.setI_sp (s : State) (w : Word) : (s.setI w).sp = s.sp := rfl
@[simp] theorem State.setI_fb (s : State) (w : Word) : (s.setI w).fb = s.fb := rfl
@[simp] theorem State.setI_dirty (s : State) (w : Word) : (s.setI w).dirty = s.dirty := rfl
@[simp] theorem State.setI_dt (s : State) (w : Word) : (s.setI w).dt = s.dt := rfl
@[simp] theorem State.setI_st (s : State) (w : Word) : (s.setI w).st = s.st := rfl
@[simp] theorem State.setI_kp (s : State) (w : Word) : (s.setI w).kp = s.kp := rfl
@[simp] theorem State.setI_status (s : State) (w : Word) : (s.setI w).status = s.status := rfl
@[simp] theorem State.setI_loaded (s : State) (w : Word) : (s.setI w).loaded = s.loaded := rfl
@[simp] theorem State.setI_phase (s : State) (w : Word) : (s.setI w).phase = s.phase := rfl
@[simp] theorem State.setI_opcodesPerFrame (s : State) (w : Word) : (s.setI w).opcodesPerFrame = s.opcodesPerFrame := rfl
@[simp] theorem State.setI_keyInputs (s : State) (w : Word) : (s.setI w).keyInputs = s.keyInputs := rfl
@[simp] theorem State.setI_ticks (s : State) (w : Word) : (s.setI w).ticks = s.ticks := rfl
@[simp] theorem State.setI_randInputs (s : State) (w : Word) : (s.setI w).randInputs = s.randInputs := rfl
@[simp] theorem State.setI_draws (s : State) (w : Word) : (s.setI w).draws = s.draws := rfl
@[simp] theorem State.setI_presents (s : State) (w : Word) : (s.setI w).presents = s.presents := rfl
@[simp] theorem State.setI_getV (s : State) (w : Word) (q : Reg) : (s.setI w).getV q = s.getV q := rfl

/-! ### `setPc` -/

@[simp] theorem State.setPc_v (s : State) (w : Word) : (s.setPc w).v = s.v := rfl
@[simp] theorem State.setPc_i (s : State) (w : Word) : (s.setPc w).i = s.i := rfl
@[simp] theorem State.setPc_pc (s : State) (w : Word) : (s.setPc w).pc = w := rfl
@[simp] theorem State.setPc_mem (s : State) (w : Word) : (s.setPc w).mem = s.mem := rfl
@[simp] theorem State.setPc_stack (s : State) (w : Word) : (s.setPc w).stack = s.stack := rfl
@[simp] theorem State.setPc_sp (s : State) (w : Word) : (s.setPc w).sp = s.sp := rfl
@[simp] theorem State.setPc_fb (s : State) (w : Word) : (s.setPc w).fb = s.fb := rfl
@[simp] theorem State.setPc_dirty (s : State) (w : Word) : (s.setPc w).dirty = s.dirty := rfl
@[simp] theorem State.setPc_dt (s : State) (w : Word) : (s.setPc w).dt = s.dt := rfl
@[simp] theorem State.setPc_st (s : State) (w : Word) : (s.setPc w).st = s.st := rfl
@[simp] theorem State.setPc_kp (s : State) (w : Word) : (s.setPc w).kp = s.kp := rfl
@[simp] theorem State.setPc_status (s : State) (w : Word) : (s.setPc w).status = s.status := rfl
@[simp] theorem State.setPc_loaded (s : State) (w : Word) : (s.setPc w).loaded = s.loaded := rfl
@[simp] theorem State.setPc_phase (s : State) (w : Word) : (s.setPc w).phase = s.phase := rfl
@[simp] theorem State.setPc_opcodesPerFrame (s : State) (w : Word) : (s.setPc w).opcodesPerFrame = s.opcodesPerFrame := rfl
@[simp] theorem State.setPc_keyInputs (s : State) (w : Word) : (s.setPc w).keyInputs = s.keyInputs := rfl
@[simp] theorem State.setPc_ticks (s : State) (w : Word) : (s.setPc w).ticks = s.ticks := rfl
@[simp] theorem State.setPc_randInputs (s : State) (w : Word) : (s.setPc w).randInputs = s.randInputs := rfl
@[simp] theorem State.setPc_draws (s : State) (w : Word) : (s.setPc w).draws = s.draws := rfl
@[simp] theorem State.setPc_presents (s : State) (w : Word) : (s.setPc w).presents = s.presents := rfl
@[simp] theorem State.setPc_getV (s : State) (w : Word) (q : Reg) : (s.setPc w).getV q = s.getV q := rfl

/-! ### `setMem` -/

@[simp] theorem State.setMem_v (s : State) (m : Memory) : (s.setMem m).v = s.v := rfl
@[simp] theorem State.setMem_i (s : State) (m : Memory) : (s.setMem m).i = s.i := rfl
@[simp] theorem State.setMem_pc (s : State) (m : Memory) : (s.setMem m).pc = s.pc := rfl
@[simp] theorem State.setMem_mem (s : State) (m : Memory) : (s.setMem m).mem = m := rfl
@[simp] theorem State.setMem_stack (s : State) (m : Memory) : (s.setMem m).stack = s.stack := rfl
@[simp] theorem State.setMem_sp (s : State) (m : Memory) : (s.setMem m).sp = s.sp := rfl
@[simp] theorem State.setMem_fb (s : State) (m : Memory) : (s.setMem m).fb = s.fb := rfl
@[simp] theorem State.setMem_dirty (s : State) (m : Memory) : (s.setMem m).dirty = s.dirty := rfl
@[simp] theorem State.setMem_dt (s : State) (m : Memory) : (s.setMem m).dt = s.dt := rfl
@[simp] theorem State.setMem_st (s : State) (m : Memory) : (s.setMem m).st = s.st := rfl
@[simp] theorem State.setMem_kp (s : State) (m : Memory) : (s.setMem m).kp = s.kp := rfl
@[simp] theorem State.setMem_status (s : State) (m : Memory) : (s.setMem m).status = s.status := rfl
@[simp] theorem State.setMem_loaded (s : State) (m : Memory) : (s.setMem m).loaded = s.loaded := rfl
@[simp] theorem State.setMem_phase (s : State) (m : Memory) : (s.setMem m).phase = s.phase := rfl
@[simp] theorem State.setMem_opcodesPerFrame (s : State) (m : Memory) : (s.setMem m).opcodesPerFrame = s.opcodesPerFrame := rfl
@[simp] theorem State.setMem_keyInputs (s : State) (m : Memory) : (s.setMem m).keyInputs = s.keyInputs := rfl
@[simp] theorem State.setMem_ticks (s : State) (m : Memory) : (s.setMem m).ticks = s.ticks := rfl
@[simp] theorem State.setMem_randInputs (s : State) (m : Memory) : (s.setMem m).randInputs = s.randInputs := rfl
@[simp] theorem State.setMem_draws (s : State) (m : Memory) : (s.setMem m).draws = s.draws := rfl
@[simp] theorem State.setMem_presents (s : State) (m : Memory) : (s.setMem m).presents = s.presents := rfl
@[simp] theorem State.setMem_getV (s : State) (m : Memory) (q : Reg) : (s.setMem m).getV q = s.getV q := rfl

/-! ### `setScreen` -/

@[simp] theorem State.setScreen_v (s : State) (f : Framebuffer) : (s.setScreen f).v = s.v := rfl
@[simp] theorem State.setScreen_i (s : State) (f : Framebuffer) : (s.setScreen f).i = s.i := rfl
@[simp] theorem State.setScreen_pc (s : State) (f : Framebuffer) : (s.setScreen f).pc = s.pc := rfl
@[simp] theorem State.setScreen_mem (s : State) (f : Framebuffer) : (s.setScreen f).mem = s.mem := rfl
@[simp] theorem State.setScreen_stack (s : State) (f : Framebuffer) : (s.setScreen f).stack = s.stack := rfl
@[simp] theorem State.setScreen_sp (s : State) (f : Framebuffer) : (s.setScreen f).sp = s.sp := rfl
@[simp] theorem State.setScreen_fb (s : State) (f : Framebuffer) : (s.setScreen f).fb = f := rfl
@[simp] theorem State.setScreen_dirty (s : State) (f : Framebuffer) : (s.setScreen f).dirty = true := rfl
@[simp] theorem State.setScreen_dt (s : State) (f : Framebuffer) : (s.setScreen f).dt = s.dt := rfl
@[simp] theorem State.setScreen_st (s : State) (f : Framebuffer) : (s.setScreen f).st = s.st := rfl
@[simp] theorem State.setScreen_kp (s : State) (f : Framebuffer) : (s.setScreen f).kp = s.kp := rfl
@[simp] theorem State.setScreen_status (s : State) (f : Framebuffer) : (s.setScreen f).status = s.status := rfl
@[simp] theorem State.setScreen_loaded (s : State) (f : Framebuffer) : (s.setScreen f).loaded = s.loaded := rfl
@[simp] theorem State.setScreen_phase (s : State) (f : Framebuffer) : (s.setScreen f).phase = s.phase := rfl
@[simp] theorem State.setScreen_opcodesPerFrame (s : State) (f : Framebuffer) : (s.setScreen f).opcodesPerFrame = s.opcodesPerFrame := rfl
@[simp] theorem State.setScreen_keyInputs (s : State) (f : Framebuffer) : (s.setScreen f).keyInputs = s.keyInputs := rfl
@[simp] theorem State.setScreen_ticks (s : State) (f : Framebuffer) : (s.setScreen f).ticks = s.ticks := rfl
@[simp] theorem State.setScreen_randInputs (s : State) (f : Framebuffer) : (s.setScreen f).randInputs = s.randInputs := rfl
@[simp] theorem State.setScreen_draws (s : State) (f : Framebuffer) : (s.setScreen f).draws = s.draws := rfl
@[simp] theorem State.setScreen_presents (s : State) (f : Framebuffer) : (s.setScreen f).presents = s.presents := rfl
@[simp] theorem State.setScreen_getV (s : State) (f : Framebuffer) (q : Reg) : (s.setScreen f).getV q = s.getV q := rfl

/-! ### `setDt` -/

@[simp] theorem State.setDt_v (s : State) (b : Byte) : (s.setDt b).v = s.v := rfl
@[simp] theorem State.setDt_i (s : State) (b : Byte) : (s.setDt b).i = s.i := rfl
@[simp] theorem State.setDt_pc (s : State) (b : Byte) : (s.setDt b).pc = s.pc := rfl
@[simp] theorem State.setDt_mem (s : State) (b : Byte) : (s.setDt b).mem = s.mem := rfl
@[simp] theorem State.setDt_stack (s : State) (b : Byte) : (s.setDt b).stack = s.stack := rfl
@[simp] theorem State.setDt_sp (s : State) (b : Byte) : (s.setDt b).sp = s.sp := rfl
@[simp] theorem State.setDt_fb (s : State) (b : Byte) : (s.setDt b).fb = s.fb := rfl
@[simp] theorem State.setDt_dirty (s : State) (b : Byte) : (s.setDt b).dirty = s.dirty := rfl
@[simp] theorem State.setDt_dt (s : State) (b : Byte) : (s.setDt b).dt = b := rfl
@[simp] theorem State.setDt_st (s : State) (b : Byte) : (s.setDt b).st = s.st := rfl
@[simp] theorem State.setDt_kp (s : State) (b : Byte) : (s.setDt b).kp = s.kp := rfl
@[simp] theorem State.setDt_status (s : State) (b : Byte) : (s.setDt b).status = s.status := rfl
@[simp] theorem State.setDt_loaded (s : State) (b : Byte) : (s.setDt b).loaded = s.loaded := rfl
@[simp] theorem State.setDt_phase (s : State) (b : Byte) : (s.setDt b).phase = s.phase := rfl
@[simp] theorem State.setDt_opcodesPerFrame (s : State) (b : Byte) : (s.setDt b).opcodesPerFrame = s.opcodesPerFrame := rfl
@[simp] theorem State.setDt_keyInputs (s : State) (b : Byte) : (s.setDt b).keyInputs = s.keyInputs := rfl
@[simp] theorem State.setDt_ticks (s : State) (b : Byte) : (s.setDt b).ticks = s.ticks := rfl
@[simp] theorem State.setDt_randInputs (s : State) (b : Byte) : (s.setDt b).randInputs = s.randInputs := rfl
@[simp] theorem State.setDt_draws (s : State) (b : Byte) : (s.setDt b).draws = s.draws := rfl
@[simp] theorem State.setDt_presents (s : State) (b : Byte) : (s.setDt b).presents = s.presents := rfl
@[simp] theorem State.setDt_getV (s : State) (b : Byte) (q : Reg) : (s.setDt b).getV q = s.getV q := rfl

/-! ### `setSt` -/

@[simp] theorem State.setSt_v (s : State) (b : Byte) : (s.setSt b).v = s.v := rfl
@[simp] theorem State.setSt_i (s : State) (b : Byte) : (s.setSt b).i = s.i := rfl
@[simp] theorem State.setSt_pc (s : State) (b : Byte) : (s.setSt b).pc = s.pc := rfl
@[simp] theorem State.setSt_mem (s : State) (b : Byte) : (s.setSt b).mem = s.mem := rfl
@[simp] theorem State.setSt_stack (s : State) (b : Byte) : (s.setSt b).stack = s.stack := rfl
@[simp] theorem State.setSt_sp (s : State) (b : Byte) : (s.setSt b).sp = s.sp := rfl
@[simp] theorem State.setSt_fb (s : State) (b : Byte) : (s.setSt b).fb = s.fb := rfl
@[simp] theorem State.setSt_dirty (s : State) (b : Byte) : (s.setSt b).dirty = s.dirty := rfl
@[simp] theorem State.setSt_dt (s : State) (b : Byte) : (s.setSt b).dt = s.dt := rfl
@[simp] theorem State.setSt_st (s : State) (b : Byte) : (s.setSt b).st = b := rfl
@[simp] theorem State.setSt_kp (s : State) (b : Byte) : (s.setSt b).kp = s.kp := rfl
@[simp] theorem State.setSt_status (s : State) (b : Byte) : (s.setSt b).status = s.status := rfl
@[simp] theorem State.setSt_loaded (s : State) (b : Byte) : (s.setSt b).loaded = s.loaded := rfl
@[simp] theorem State.setSt_phase (s : State) (b : Byte) : (s.setSt b).phase = s.phase := rfl
@[simp] theorem State.setSt_opcodesPerFrame (s : State) (b : Byte) : (s.setSt b).opcodesPerFrame = s.opcodesPerFrame := rfl
@[simp] theorem State.setSt_keyInputs (s : State) (b : Byte) : (s.setSt b).keyInputs = s.keyInputs := rfl
@[simp] theorem State.setSt_ticks (s : State) (b : Byte) : (s.setSt b).ticks = s.ticks := rfl
@[simp] theorem State.setSt_randInputs (s : State) (b : Byte) : (s.setSt b).randInputs = s.randInputs := rfl
@[simp] theorem State.setSt_draws (s : State) (b : Byte) : (s.setSt b).draws = s.draws := rfl
@[simp] theorem State.setSt_presents (s : State) (b : Byte) : (s.setSt b).presents = s.presents := rfl
@[simp] theorem State.setSt_getV (s : State) (b : Byte) (q : Reg) : (s.setSt b).getV q = s.getV q := rfl

/-! ### `setStatus` -/

@[simp] theorem State.setStatus_v (s : State) (x : Status) : (s.setStatus x).v = s.v := rfl
@[simp] theorem State.setStatus_i (s : State) (x : Status) : (s.setStatus x).i = s.i := rfl
@[simp] theorem State.setStatus_pc (s : State) (x : Status) : (s.setStatus x).pc = s.pc := rfl
@[simp] theorem State.setStatus_mem (s : State) (x : Status) : (s.setStatus x).mem = s.mem := rfl
@[simp] theorem State.setStatus_stack (s : State) (x : Status) : (s.setStatus x).stack = s.stack := rfl
@[simp] theorem State.setStatus_sp (s : State) (x : Status) : (s.setStatus x).sp = s.sp := rfl
@[simp] theorem State.setStatus_fb (s : State) (x : Status) : (s.setStatus x).fb = s.fb := rfl
@[simp] theorem State.setStatus_dirty (s : State) (x : Status) : (s.setStatus x).dirty = s.dirty := rfl
@[simp] theorem State.setStatus_dt (s : State) (x : Status) : (s.setStatus x).dt = s.dt := rfl
@[simp] theorem State.setStatus_st (s : State) (x : Status) : (s.setStatus x).st = s.st := rfl
@[simp] theorem State.setStatus_kp (s : State) (x : Status) : (s.setStatus x).kp = s.kp := rfl
@[simp] theorem State.setStatus_status (s : State) (x : Status) : (s.setStatus x).status = x := rfl
@[simp] theorem State.setStatus_loaded (s : State) (x : Status) : (s.setStatus x).loaded = s.loaded := rfl
@[simp] theorem State.setStatus_phase (s : State) (x : Status) : (s.setStatus x).phase = s.phase := rfl
@[simp] theorem State.setStatus_opcodesPerFrame (s : State) (x : Status) : (s.setStatus x).opcodesPerFrame = s.opcodesPerFrame := rfl
@[simp] theorem State.setStatus_keyInputs (s : State) (x : Status) : (s.setStatus x).keyInputs = s.keyInputs := rfl
@[simp] theorem State.setStatus_ticks (s : State) (x : Status) : (s.setStatus x).ticks = s.ticks := rfl
@[simp] theorem State.setStatus_randInputs (s : State) (x : Status) : (s.setStatus x).randInputs = s.randInputs := rfl
@[simp] theorem State.setStatus_draws (s : State) (x : Status) : (s.setStatus x).draws = s.draws := rfl
@[simp] theorem State.setStatus_presents (s : State) (x : Status) : (s.setStatus x).presents = s.presents := rfl
@[simp] theorem State.setStatus_getV (s : State) (x : Status) (q : Reg) : (s.setStatus x).getV q = s.getV q := rfl

/-! ### `afterDraw` -/

@[simp] theorem State.afterDraw_v (s : State) : s.afterDraw.v = s.v := rfl
@[simp] theorem State.afterDraw_i (s : State) : s.afterDraw.i = s.i := rfl
@[simp] theorem State.afterDraw_pc (s : State) : s.afterDraw.pc = s.pc := rfl
@[simp] theorem State.afterDraw_mem (s : State) : s.afterDraw.mem = s.mem := rfl
@[simp] theorem State.afterDraw_stack (s : State) : s.afterDraw.stack = s.stack := rfl
@[simp] theorem State.afterDraw_sp (s : State) : s.afterDraw.sp = s.sp := rfl
@[simp] theorem State.afterDraw_fb (s : State) : s.afterDraw.fb = s.fb := rfl
@[simp] theorem State.afterDraw_dirty (s : State) : s.afterDraw.dirty = s.dirty := rfl
@[simp] theorem State.afterDraw_dt (s : State) : s.afterDraw.dt = s.dt := rfl
@[simp] theorem State.afterDraw_st (s : State) : s.afterDraw.st = s.st := rfl
@[simp] theorem State.afterDraw_kp (s : State) : s.afterDraw.kp = s.kp := rfl
@[simp] theorem State.afterDraw_status (s : State) : s.afterDraw.status = s.status := rfl
@[simp] theorem State.afterDraw_loaded (s : State) : s.afterDraw.loaded = s.loaded := rfl
@[simp] theorem State.afterDraw_phase (s : State) : s.afterDraw.phase = s.phase := rfl
@[simp] theorem State.afterDraw_opcodesPerFrame (s : State) : s.afterDraw.opcodesPerFrame = s.opcodesPerFrame := rfl
@[simp] theorem State.afterDraw_keyInputs (s : State) : s.afterDraw.keyInputs = s.keyInputs := rfl
@[simp] theorem State.afterDraw_ticks (s : State) : s.afterDraw.ticks = s.ticks := rfl
@[simp] theorem State.afterDraw_randInputs (s : State) : s.afterDraw.randInputs = s.randInputs.tail := rfl
@[simp] theorem State.afterDraw_draws (s : State) : s.afterDraw.draws = s.draws + 1 := rfl
@[simp] theorem State.afterDraw_presents (s : State) : s.afterDraw.presents = s.presents := rfl
@[simp] theorem State.afterDraw_getV (s : State) (q : Reg) : s.afterDraw.getV q = s.getV q := rfl

/-! ### `loadBlock` -/

@[simp] theorem State.loadBlock_i (s : State) (base : Nat) (x : Reg) : (s.loadBlock base x).i = s.i := rfl
@[simp] theorem State.loadBlock_pc (s : State) (base : Nat) (x : Reg) : (s.loadBlock base x).pc = s.pc := rfl
@[simp] theorem State.loadBlock_mem (s : State) (base : Nat) (x : Reg) : (s.loadBlock base x).mem = s.mem := rfl
@[simp] theorem State.loadBlock_stack (s : State) (base : Nat) (x : Reg) : (s.loadBlock base x).stack = s.stack := rfl
@[simp] theorem State.loadBlock_sp (s : State) (base : Nat) (x : Reg) : (s.loadBlock base x).sp = s.sp := rfl
@[simp] theorem State.loadBlock_fb (s : State) (base : Nat) (x : Reg) : (s.loadBlock base x).fb = s.fb := rfl
@[simp] theorem State.loadBlock_dirty (s : State) (base : Nat) (x : Reg) : (s.loadBlock base x).dirty = s.dirty := rfl
@[simp] theorem State.loadBlock_dt (s : State) (base : Nat) (x : Reg) : (s.loadBlock base x).dt = s.dt := rfl
@[simp] theorem State.loadBlock_st (s : State) (base : Nat) (x : Reg) : (s.loadBlock base x).st = s.st := rfl
@[simp] theorem State.loadBlock_kp (s : State) (base : Nat) (x : Reg) : (s.loadBlock base x).kp = s.kp := rfl
@[simp] theorem State.loadBlock_status (s : State) (base : Nat) (x : Reg) : (s.loadBlock base x).status = s.status := rfl
@[simp] theorem State.loadBlock_loaded (s : State) (base : Nat) (x : Reg) : (s.loadBlock base x).loaded = s.loaded := rfl
@[simp] theorem State.loadBlock_phase (s : State) (base : Nat) (x : Reg) : (s.loadBlock base x).phase = s.phase := rfl
@[simp] theorem State.loadBlock_opcodesPerFrame (s : State) (base : Nat) (x : Reg) : (s.loadBlock base x).opcodesPerFrame = s.opcodesPerFrame := rfl
@[simp] theorem State.loadBlock_keyInputs (s : State) (base : Nat) (x : Reg) : (s.loadBlock base x).keyInputs = s.keyInputs := rfl
@[simp] theorem State.loadBlock_ticks (s : State) (base : Nat) (x : Reg) : (s.loadBlock base x).ticks = s.ticks := rfl
@[simp] theorem State.loadBlock_randInputs (s : State) (base : Nat) (x : Reg) : (s.loadBlock base x).randInputs = s.randInputs := rfl
@[simp] theorem State.loadBlock_draws (s : State) (base : Nat) (x : Reg) : (s.loadBlock base x).draws = s.draws := rfl
@[simp] theorem State.loadBlock_presents (s : State) (base : Nat) (x : Reg) : (s.loadBlock base x).presents = s.presents := rfl

/-! ### Registers -/

/-- A register reads what was last written to it, and every other what it held. -/
theorem State.getV_setV (s : State) (r q : Reg) (b : Byte) : (s.setV r b).getV q = if q = r then b else s.getV q := by
  simp only [State.getV, State.setV, Vector.getElem_set, Fin.ext_iff, eq_comm]

@[simp] theorem State.getV_setV_same (s : State) (r : Reg) (b : Byte) : (s.setV r b).getV r = b := by
  simp [State.getV_setV]

theorem State.getV_setV_other (s : State) {r q : Reg} (b : Byte) (h : q ≠ r) : (s.setV r b).getV q = s.getV q := by
  simp [State.getV_setV, h]

/-- A register block load writes `V[0]` to `V[X]` and no other register. -/
theorem State.getV_loadBlock (s : State) (base : Nat) (x r : Reg) :
    (s.loadBlock base x).getV r = if r ≤ x then s.mem.read (base + r.val) else s.getV r := by
  simp only [State.getV, State.loadBlock, Vector.getElem_mapIdx, Fin.val_fin_le]

/-- The k-th byte of a register block is `V[k]`. -/
theorem State.getElem_registerBlock (s : State) (x r : Reg) (h : r ≤ x) : (s.registerBlock x)[r.val]? = some (s.getV r) := by
  have : r.val < x.val + 1 := by have := Fin.le_def.mp h; omega
  simp [State.registerBlock, State.getV, this]

@[simp] theorem State.length_registerBlock (s : State) (x : Reg) : (s.registerBlock x).length = x.val + 1 := by
  simp [State.registerBlock]

/-! ### The call stack -/

/-- A push succeeds exactly when fewer than 16 entries are in use, and says what it leaves. -/
theorem State.push_of_lt (s : State) (a : Word) (h : s.sp.val < 16) :
    s.push a = some { s with stack := s.stack.set s.sp.val a, sp := ⟨s.sp.val + 1, by omega⟩ } := by
  simp [State.push, h]

theorem State.push_of_full (s : State) (a : Word) (h : s.sp.val = 16) : s.push a = none := by
  simp [State.push, h]

/-- A pop succeeds exactly when an entry is in use, and says what it gives and leaves. -/
theorem State.pop_of_pos (s : State) (h : 0 < s.sp.val) :
    s.pop = some (s.stack[s.sp.val - 1], { s with sp := ⟨s.sp.val - 1, by omega⟩ }) := by
  simp [State.pop, h]

theorem State.pop_of_empty (s : State) (h : s.sp.val = 0) : s.pop = none := by
  simp [State.pop, h]

/-! ### The bounds check -/

/-- The check of rule R56 for a non-empty access: its last byte lies past 4095. -/
theorem State.outOfRange_iff (s : State) (cnt : Nat) : s.outOfRange cnt = true ↔ 0 < cnt ∧ 4096 < s.i.toNat + cnt := by
  simp only [State.outOfRange, decide_eq_true_eq]; omega

theorem State.outOfRange_false_iff (s : State) (cnt : Nat) : s.outOfRange cnt = false ↔ cnt = 0 ∨ s.i.toNat + cnt ≤ 4096 := by
  simp only [State.outOfRange, decide_eq_false_iff_not]; omega

/-- A legal fetch address is even and in [0x200,4096) (R26). -/
theorem legalPc_iff (pc : Word) : legalPc pc = true ↔ pc.toNat % 2 = 0 ∧ 0x200 ≤ pc.toNat ∧ pc.toNat < 4096 := by
  simp [legalPc, and_assoc]

/-! ### Host inputs -/

theorem State.drawByte_given (s : State) (b : Byte) (bs : List Byte) (h : s.randInputs = b :: bs) : s.drawByte = b := by
  simp [State.drawByte, h]

@[simp] theorem State.drawByte_free (s : State) (h : s.randInputs = []) : s.drawByte = Config.randomByte s.draws := by
  simp [State.drawByte, h]

theorem State.nextKeys_given (s : State) (k : KeySet) (ks : List KeySet) (h : s.keyInputs = k :: ks) :
    s.nextKeys = k := by
  simp [State.nextKeys, h]

@[simp] theorem State.nextKeys_free (s : State) (h : s.keyInputs = []) : s.nextKeys = Config.keySnapshot s.ticks := by
  simp [State.nextKeys, h]

end Sys2Proof.Machine
end

