-- ==== Sys2Proof/Laws/Step.lean ====
section
/-! SUPPORT. What one step, one cycle and one timer tick can do: one equation for each way through, so that provers cite these
and never unfold `step`. -/

namespace Sys2Proof.Machine

/-! ### The step, by phase -/

theorem step_of_between (s : State) (h : s.phase = .between) : step s = startTick s := by simp only [step, h]

theorem step_of_execute (s : State) (n : Nat) (h : s.phase = .execute n) : step s = runCycle n s := by simp only [step, h]

theorem step_of_finish (s : State) (h : s.phase = .finish) : step s = .next (endTick s) := by simp only [step, h]

theorem startTick_of_running (s : State) (h : s.status = .running) : startTick s = .next (beginTick s) := by
  simp only [startTick, h]

/-- A stopped Engine's reason is what the run ends with (R229). -/
theorem startTick_of_stopped (s : State) (h : s.status ≠ .running) : ∃ f, startTick s = .fault f := by
  unfold startTick
  split
  · contradiction
  · exact ⟨_, rfl⟩
  · exact ⟨_, rfl⟩

theorem runCycle_of_next (n : Nat) (s t : State) (r : CycleResult) (h : cycle s = .next (t, r)) :
    runCycle n s = .next { t with phase := phaseAfter n t.opcodesPerFrame r } := by
  simp only [runCycle, h]

/-! ### The cycle, by what it finds -/

theorem cycle_of_stopped (s : State) (h : s.status ≠ .running) : cycle s = .next (s, .terminal) := by
  unfold cycle
  split
  · contradiction
  · rfl
  · rfl

theorem cycle_of_illegal_pc (s : State) (hs : s.status = .running) (hl : legalPc s.pc = false) :
    cycle s = .next (s.raise .misalignedProgramCounter none, .terminal) := by
  simp [cycle, hs, hl]

theorem cycle_of_error (s : State) (e : DecodeError) (hs : s.status = .running) (hl : legalPc s.pc = true)
    (hd : decodeWord s.fetchWord = .error e) :
    cycle s = .next (s.raise .unimplementedOpcode (some s.fetchWord), .terminal) := by
  simp [cycle, hs, hl, executeDecoded, hd]

theorem cycle_of_ok (s t : State) (i : Instr) (hs : s.status = .running) (hl : legalPc s.pc = true)
    (hd : decodeWord s.fetchWord = .ok i) (he : exec i s = .next t) : cycle s = .next (t, cycleResult i s t) := by
  simp [cycle, hs, hl, executeDecoded, hd, he]

/-- Everything a cycle that answers can do: nothing, one of the two fetch faults, or the decoded instruction. -/
theorem cycle_cases (s t : State) (r : CycleResult) (h : cycle s = .next (t, r)) :
    (s.status ≠ .running ∧ t = s ∧ r = .terminal) ∨
    (s.status = .running ∧ legalPc s.pc = false ∧ t = s.raise .misalignedProgramCounter none ∧ r = .terminal) ∨
    (s.status = .running ∧ legalPc s.pc = true ∧ (∃ e, decodeWord s.fetchWord = .error e) ∧
      t = s.raise .unimplementedOpcode (some s.fetchWord) ∧ r = .terminal) ∨
    (s.status = .running ∧ legalPc s.pc = true ∧
      ∃ i, decodeWord s.fetchWord = .ok i ∧ exec i s = .next t ∧ r = cycleResult i s t) := by
  by_cases hs : s.status = .running
  · refine .inr ?_
    by_cases hl : legalPc s.pc = true
    · refine .inr ?_
      cases hd : decodeWord s.fetchWord with
      | error e =>
        rw [cycle_of_error s e hs hl hd] at h
        simp only [Host.Outcome.next.injEq, Prod.mk.injEq] at h
        exact .inl ⟨hs, hl, ⟨e, rfl⟩, h.1.symm, h.2.symm⟩
      | ok i =>
        cases he : exec i s with
        | next u =>
          rw [cycle_of_ok s u i hs hl hd he] at h
          simp only [Host.Outcome.next.injEq, Prod.mk.injEq] at h
          obtain ⟨rfl, rfl⟩ := h
          exact .inr ⟨hs, hl, i, rfl, he, rfl⟩
        | fault f => simp [cycle, hs, hl, executeDecoded, hd, he] at h
        | refused f => simp [cycle, hs, hl, executeDecoded, hd, he] at h
    · have hl : legalPc s.pc = false := by simpa using hl
      rw [cycle_of_illegal_pc s hs hl] at h
      simp only [Host.Outcome.next.injEq, Prod.mk.injEq] at h
      exact .inl ⟨hs, hl, h.1.symm, h.2.symm⟩
  · rw [cycle_of_stopped s hs] at h
    simp only [Host.Outcome.next.injEq, Prod.mk.injEq] at h
    exact .inl ⟨hs, h.1.symm, h.2.symm⟩

/-! ### The keypad -/

/-- No key is pressed exactly when the snapshot is 0 (R34, R188). -/
theorem lowestKey_eq_none_iff (kp : KeySet) : lowestKey kp = none ↔ kp = 0 := by
  simp only [lowestKey, List.find?_eq_none, List.mem_range, keyPressed]
  constructor
  · intro h
    apply BitVec.eq_of_getLsbD_eq
    intro k hk
    simpa using h k hk
  · rintro rfl
    simp

/-- The key found is pressed and none below it is (R188). -/
theorem lowestKey_some (kp : KeySet) (k : Nat) (h : lowestKey kp = some k) :
    k < 16 ∧ kp.getLsbD k = true ∧ ∀ j < k, kp.getLsbD j = false := by
  simp only [lowestKey, keyPressed] at h
  rw [List.find?_range_eq_some] at h
  simp only [List.mem_range, Bool.not_eq_eq_eq_not, Bool.not_true] at h
  exact ⟨h.2.1, h.1, h.2.2⟩

/-- A cycle awaits input exactly at an FX0A with no key pressed (R188). -/
theorem awaitsKey_iff (i : Instr) (s : State) : awaitsKey i s = true ↔ (∃ x, i = .ldVxK x) ∧ s.kp = 0 := by
  cases i <;> simp [awaitsKey, lowestKey_eq_none_iff]

/-- A cycle's result is CONTINUE exactly when STATUS stays RUNNING and no key is awaited (R200). -/
theorem cycleResult_eq_proceed_iff (i : Instr) (s t : State) :
    cycleResult i s t = .proceed ↔ t.status = .running ∧ ¬ ((∃ x, i = .ldVxK x) ∧ s.kp = 0) := by
  rw [← awaitsKey_iff]
  unfold cycleResult
  split
  · rename_i h
    by_cases ha : awaitsKey i s = true <;> simp [h, ha]
  · rename_i h; simp [h]
  · rename_i h; simp [h]

/-! ### The timers and the display -/

/-- A timer counts down by one and stops at 0 (R220). -/
@[simp] theorem toNat_countDown (b : Byte) : (countDown b).toNat = b.toNat - 1 := by
  unfold countDown
  split
  · rename_i h; subst h; rfl
  · rename_i h
    have : b.toNat ≠ 0 := fun h0 => h (BitVec.eq_of_toNat_eq h0)
    have := b.isLt
    simp only [BitVec.toNat_sub, show (1 : Byte).toNat = 1 from rfl]
    omega

@[simp] theorem State.present_dirty (s : State) : s.present.dirty = false := by
  unfold State.present; split
  · rfl
  · rename_i h; simpa using h

@[simp] theorem State.present_presents (s : State) :
    s.present.presents = if s.dirty = true then s.fb :: s.presents else s.presents := by
  unfold State.present; split <;> rfl

/-- Presenting changes DIRTY and the display's output alone (R232). -/
theorem State.present_frame (s : State) :
    s.present = { s with dirty := s.present.dirty, presents := s.present.presents } := by
  unfold State.present; split <;> rfl

end Sys2Proof.Machine
end

