-- ==== Sys2Proof/Tests/Slice0.lean ====
section
/-! SUPPORT. Tests on fixed values, and a witness for the hypotheses of each obligation that has any. The words decoded are
written out from the opcode table (30_encoding.md rule R87); every expected effect is a vector of spec/95_test_vectors.md,
named in the test's comment, or computed by hand from the rule named there. -/

namespace Sys2Proof.Machine

/-! ### Small changes to a state -/

/-- Registers V0, V1, ... preset. -/
def State.withV (s : State) (bs : List Byte) : State := { s with v := s.v.mapIdx (fun k b => bs.getD k b) }

/-- VF preset. -/
def State.withVF (s : State) (b : Byte) : State := s.setV 15 b

/-- Bytes of memory preset. -/
def State.withMem (s : State) (a : Nat) (bs : List Byte) : State := { s with mem := s.mem.writeBytes a bs }

/-- A framebuffer byte preset. -/
def State.withFb (s : State) (k : Fin 256) (b : Byte) : State := { s with fb := s.fb.set k.val b }

end Sys2Proof.Machine

namespace Sys2Proof.Tests

open Sys2Proof.Machine

/-! ### Well-formedness: an ill-formed line for each check (R82, R91) -/

theorem test_wf_accepts_limits :
    (AsmLine.mk .drw [15, 15, 15]).assemble = some (.drw 15 15 15) ∧ (AsmLine.mk .jp [4095]).assemble = some (.jp 4095) ∧
    (AsmLine.mk .ldImm [15, 255]).assemble = some (.ldImm 15 255) ∧ (AsmLine.mk .cls []).assemble = some .cls := by decide

theorem test_wf_refuses_missing_operand : (AsmLine.mk .seReg [1]).assemble = none := by decide
theorem test_wf_refuses_extra_operand : (AsmLine.mk .cls [0]).assemble = none := by decide
theorem test_wf_refuses_register_16 : (AsmLine.mk .ldF [16]).assemble = none := by decide
theorem test_wf_refuses_second_register_16 : (AsmLine.mk .addReg [0, 16]).assemble = none := by decide
theorem test_wf_refuses_nn_256 : (AsmLine.mk .ldImm [0, 256]).assemble = none := by decide
theorem test_wf_refuses_nnn_4096 : (AsmLine.mk .call [4096]).assemble = none := by decide
theorem test_wf_refuses_n_16 : (AsmLine.mk .drw [0, 0, 16]).assemble = none := by decide

/-- `SHR` and `SHL` are written with X alone and assembled with Y = 0 (R91). -/
theorem test_wf_shift_line : (AsmLine.mk .shr [3]).assemble = some (.shr 3 0) ∧ (AsmLine.mk .shl [3, 4]).assemble = none := by
  decide

/-! ### Decoding: one word for every row of the opcode table (R87), its two bytes as memory holds them (R52) -/

/-- 00E0, 00EE: `0000 0000 1110 0000`, `0000 0000 1110 1110`. -/
theorem test_decode_fixed : decodeBytes [0x00, 0xE0] = .ok (.cls, []) ∧ decodeBytes [0x00, 0xEE] = .ok (.ret, []) := by decide

/-- 1NNN, 2NNN, ANNN, BNNN: the opcode nibble and twelve bits of NNN. -/
theorem test_decode_address :
    decodeBytes [0x1A, 0xBC] = .ok (.jp 0xABC, []) ∧ decodeBytes [0x2F, 0x01] = .ok (.call 0xF01, []) ∧
    decodeBytes [0xA1, 0x23] = .ok (.ldI 0x123, []) ∧ decodeBytes [0xB3, 0x05] = .ok (.jpV0 0x305, []) := by decide

/-- 3XNN, 4XNN, 6XNN, 7XNN, CXNN: X in bits 11 to 8, NN in bits 7 to 0. -/
theorem test_decode_register_immediate :
    decodeBytes [0x3A, 0x42] = .ok (.seImm 10 0x42, []) ∧ decodeBytes [0x4B, 0x42] = .ok (.sneImm 11 0x42, []) ∧
    decodeBytes [0x6A, 0x7F] = .ok (.ldImm 10 0x7F, []) ∧ decodeBytes [0x7F, 0x02] = .ok (.addImm 15 0x02, []) ∧
    decodeBytes [0xC3, 0x0F] = .ok (.rnd 3 0x0F, []) := by decide

/-- 5XY0, 9XY0, DXYN: X in bits 11 to 8, Y in bits 7 to 4. -/
theorem test_decode_two_registers :
    decodeBytes [0x51, 0x20] = .ok (.seReg 1 2, []) ∧ decodeBytes [0x9E, 0xD0] = .ok (.sneReg 14 13, []) ∧
    decodeBytes [0xD0, 0x1F] = .ok (.drw 0 1 15, []) := by decide

/-- 8XY0 to 8XY3: the minor opcode in bits 3 to 0. -/
theorem test_decode_logic :
    decodeBytes [0x81, 0x20] = .ok (.ldReg 1 2, []) ∧ decodeBytes [0x81, 0x21] = .ok (.orReg 1 2, []) ∧
    decodeBytes [0x81, 0x22] = .ok (.andReg 1 2, []) ∧ decodeBytes [0x81, 0x23] = .ok (.xorReg 1 2, []) := by decide

/-- 8XY4 to 8XY7 and 8XYE. -/
theorem test_decode_arithmetic :
    decodeBytes [0x8F, 0x14] = .ok (.addReg 15 1, []) ∧ decodeBytes [0x8F, 0x15] = .ok (.sub 15 1, []) ∧
    decodeBytes [0x8F, 0x16] = .ok (.shr 15 1, []) ∧ decodeBytes [0x8F, 0x17] = .ok (.subn 15 1, []) ∧
    decodeBytes [0x8F, 0x1E] = .ok (.shl 15 1, []) := by decide

/-- EX9E, EXA1, FX07, FX0A, FX15, FX18: the low byte selects. -/
theorem test_decode_keypad_timer :
    decodeBytes [0xE5, 0x9E] = .ok (.skp 5, []) ∧ decodeBytes [0xE5, 0xA1] = .ok (.sknp 5, []) ∧
    decodeBytes [0xF2, 0x07] = .ok (.ldVxDt 2, []) ∧ decodeBytes [0xF3, 0x0A] = .ok (.ldVxK 3, []) ∧
    decodeBytes [0xF2, 0x15] = .ok (.ldDtVx 2, []) ∧ decodeBytes [0xF0, 0x18] = .ok (.ldStVx 0, []) := by decide

/-- FX1E, FX29, FX33, FX55, FX65: the low byte selects. -/
theorem test_decode_index_memory :
    decodeBytes [0xFF, 0x1E] = .ok (.addI 15, []) ∧ decodeBytes [0xF4, 0x29] = .ok (.ldF 4, []) ∧
    decodeBytes [0xF5, 0x33] = .ok (.ldB 5, []) ∧ decodeBytes [0xF2, 0x55] = .ok (.stRegs 2, []) ∧
    decodeBytes [0xFF, 0x65] = .ok (.ldRegs 15, []) := by decide

/-- T-X1 to T-X4, T-S8, T-S12, T-A11, T-A12, T-K6, T-K14, T-K15: the illegal words. -/
theorem test_decode_illegal :
    [0x0000, 0x00E1, 0x01E0, 0x0123, 0x5121, 0x912F, 0x8128, 0x812F, 0xE500, 0xF2FF, 0xF000].all
      (fun w : Word => decodeWord w == .error (.unimplemented w)) = true := by decide

/-- The bytes after an instruction are given back, and half a word is refused. -/
theorem test_decode_rest :
    decodeBytes [0x12, 0x34, 0x56] = .ok (.jp 0x234, [0x56]) ∧ decodeBytes [0x12] = .error .truncated ∧
    decodeBytes [] = .error .truncated := by decide

/-- The words written out again by the encoder. -/
theorem test_encode :
    encode (.jp 0x234) = 0x1234 ∧ encode (.drw 0 1 2) = 0xD012 ∧ encode (.shl 3 4) = 0x834E ∧ encode (.skp 5) = 0xE59E := by
  decide

/-! ### One step -/

/-- The launch state of the vectors, without a font, with 8 cycles a tick. -/
def launch : State := State.resetWith (Vector.replicate 80 0) 8

/-- The state after the one cycle that runs the word `w` placed at PC. -/
def after (w : Nat) (s : State) : State :=
  match step (s.withFetchWord 16 w) with
  | .next t => t
  | .fault _ => s
  | .refused _ => s

/-- T-D0. -/
theorem test_cls : (after 0x00E0 ((launch.withFb 0 0xFF).withFb 255 1)).fb[0] = 0 ∧
    (after 0x00E0 ((launch.withFb 0 0xFF).withFb 255 1)).fb[255] = 0 ∧ (after 0x00E0 launch).dirty = true ∧
    (after 0x00E0 launch).pc = 0x202 := by decide

/-- T-F9. -/
theorem test_ret : (after 0x00EE { launch with pc := 0x300, sp := 1, stack := launch.stack.set 0 0x202 }).pc = 0x202 ∧
    (after 0x00EE { launch with pc := 0x300, sp := 1, stack := launch.stack.set 0 0x202 }).sp = 0 := by decide

/-- T-F10. -/
theorem test_ret_underflow : (after 0x00EE { launch with pc := 0x300 }).status = .faulted .stackUnderflow (some 0x00EE) 0x300 ∧
    (after 0x00EE { launch with pc := 0x300 }).pc = 0x300 := by decide

/-- T-F1, T-F3. -/
theorem test_jp : (after 0x1ABC launch).pc = 0xABC ∧ (after 0x1201 launch).pc = 0x201 ∧
    (after 0x1201 launch).status = .running := by decide

/-- T-F2. -/
theorem test_jp_self : (after 0x1200 launch).status = .halted 0x1200 0x200 ∧ (after 0x1200 launch).pc = 0x200 := by decide

/-- T-F6. -/
theorem test_call : (after 0x2300 { launch with pc := 0xFFE }).stack[0] = 0x1000 ∧
    (after 0x2300 { launch with pc := 0xFFE }).sp = 1 ∧ (after 0x2300 { launch with pc := 0xFFE }).pc = 0x300 := by decide

/-- T-F7, T-F8. -/
theorem test_call_overflow : (after 0x2300 { launch with sp := 15 }).stack[15] = 0x202 ∧
    (after 0x2300 { launch with sp := 15 }).sp = 16 ∧
    (after 0x2300 { launch with sp := 16 }).status = .faulted .stackOverflow (some 0x2300) 0x200 := by decide

/-- T-S1, T-S2. -/
theorem test_se_imm : (after 0x3A42 (launch.setV 10 0x42)).pc = 0x204 ∧ (after 0x3A42 (launch.setV 10 0x43)).pc = 0x202 := by
  decide

/-- T-S13: the skip from the last word but one lands outside memory; the next cycle faults. -/
theorem test_se_imm_last : (after 0x3000 { launch with pc := 0xFFC }).pc = 0x1000 := by decide

/-- T-S3, T-S4. -/
theorem test_sne_imm : (after 0x4A42 (launch.setV 10 0x42)).pc = 0x202 ∧ (after 0x4A42 (launch.setV 10 0x43)).pc = 0x204 := by
  decide

/-- T-S5, T-S6, T-S7. -/
theorem test_se_reg : (after 0x5120 (launch.withV [0, 7, 7])).pc = 0x204 ∧ (after 0x5120 (launch.withV [0, 7, 8])).pc = 0x202 ∧
    (after 0x5330 (launch.setV 3 9)).pc = 0x204 := by decide

/-- T-S8. -/
theorem test_se_reg_illegal : (after 0x5121 launch).status = .faulted .unimplementedOpcode (some 0x5121) 0x200 := by decide

/-- T-A1, T-A2. -/
theorem test_ld_imm : (after 0x6A7F (launch.setV 10 1)).getV 10 = 0x7F ∧ (after 0x6F01 launch).getV 15 = 1 := by decide

/-- T-A3. -/
theorem test_add_imm : (after 0x7001 (launch.setV 0 0xFF)).getV 0 = 0 ∧ (after 0x7001 (launch.setV 0 0xFF)).getV 15 = 0 := by
  decide

/-- T-A5. -/
theorem test_add_imm_vf : (after 0x7F02 (launch.withVF 0xFF)).getV 15 = 1 := by decide

/-- T-A6. -/
theorem test_ld_reg : (after 0x8120 (launch.withV [0, 1, 0xAB])).getV 1 = 0xAB ∧
    (after 0x8120 (launch.withV [0, 1, 0xAB])).getV 2 = 0xAB := by decide

/-- T-A7. -/
theorem test_or : (after 0x8121 ((launch.withV [0, 0xF0, 0x3C]).withVF 1)).getV 1 = 0xFC ∧
    (after 0x8121 ((launch.withV [0, 0xF0, 0x3C]).withVF 1)).getV 15 = 1 := by decide

/-- T-A8. -/
theorem test_and : (after 0x8122 ((launch.withV [0, 0xF0, 0x3C]).withVF 1)).getV 1 = 0x30 ∧
    (after 0x8122 ((launch.withV [0, 0xF0, 0x3C]).withVF 1)).getV 15 = 1 := by decide

/-- T-A9, T-A10. -/
theorem test_xor : (after 0x8123 ((launch.withV [0, 0xF0, 0x3C]).withVF 1)).getV 1 = 0xCC ∧
    (after 0x8113 (launch.withV [0, 0xF0])).getV 1 = 0 := by decide

/-- The row 0xFF, 0x01 of the table of 95_test_vectors.md section 2.3, and T-A34. -/
theorem test_add_reg : (after 0x8124 ((launch.withV [0, 0xFF, 1]).withVF 0xAA)).getV 1 = 0 ∧
    (after 0x8124 ((launch.withV [0, 0xFF, 1]).withVF 0xAA)).getV 15 = 1 ∧
    (after 0x8FF4 (launch.withVF 0x90)).getV 15 = 1 := by decide

/-- T-A30. -/
theorem test_add_reg_y_is_vf : (after 0x80F4 ((launch.setV 0 1).withVF 0xFF)).getV 0 = 0 ∧
    (after 0x80F4 ((launch.setV 0 1).withVF 0xFF)).getV 15 = 1 := by decide

/-- The rows 0x10, 0x20 and 0x80, 0x80. -/
theorem test_sub : (after 0x8125 (launch.withV [0, 0x10, 0x20])).getV 1 = 0xF0 ∧
    (after 0x8125 ((launch.withV [0, 0x10, 0x20]).withVF 0xAA)).getV 15 = 0 ∧
    (after 0x8125 (launch.withV [0, 0x80, 0x80])).getV 15 = 1 := by decide

/-- T-A22, T-A23. -/
theorem test_sub_vf : (after 0x8F15 ((launch.setV 1 0x20).withVF 0x10)).getV 15 = 0 ∧
    (after 0x8F15 ((launch.setV 1 0x10).withVF 0x20)).getV 15 = 1 := by decide

/-- The rows 0xFF, 0x01 and 0xFE, 0x01: Y is ignored. -/
theorem test_shr : (after 0x8126 (launch.withV [0, 0xFF, 1])).getV 1 = 0x7F ∧
    (after 0x8126 (launch.withV [0, 0xFF, 1])).getV 15 = 1 ∧
    (after 0x8126 ((launch.withV [0, 0xFE, 1]).withVF 0xAA)).getV 15 = 0 := by decide

/-- T-A24, T-A25. -/
theorem test_shr_vf : (after 0x8F16 (launch.withVF 3)).getV 15 = 1 ∧ (after 0x8F16 (launch.withVF 2)).getV 15 = 0 := by decide

/-- The rows 0x10, 0x20 and 0x20, 0x10 and 0x80, 0x80. -/
theorem test_subn : (after 0x8127 (launch.withV [0, 0x10, 0x20])).getV 1 = 0x10 ∧
    (after 0x8127 ((launch.withV [0, 0x20, 0x10]).withVF 0xAA)).getV 15 = 0 ∧
    (after 0x8127 (launch.withV [0, 0x80, 0x80])).getV 15 = 1 := by decide

/-- T-A33. -/
theorem test_subn_y_is_vf : (after 0x80F7 ((launch.setV 0 0x10).withVF 0x20)).getV 0 = 0x10 ∧
    (after 0x80F7 ((launch.setV 0 0x10).withVF 0x20)).getV 15 = 1 := by decide

/-- The rows 0x7F, 0x01 and 0xFE, 0x01. -/
theorem test_shl : (after 0x812E (launch.withV [0, 0x7F, 1])).getV 1 = 0xFE ∧
    (after 0x812E ((launch.withV [0, 0x7F, 1]).withVF 0xAA)).getV 15 = 0 ∧
    (after 0x812E (launch.withV [0, 0xFE, 1])).getV 15 = 1 := by decide

/-- T-A28, T-A29. -/
theorem test_shl_vf : (after 0x8F1E (launch.withVF 0x80)).getV 15 = 1 ∧ (after 0x8F1E (launch.withVF 0x7F)).getV 15 = 0 := by
  decide

/-- T-S9, T-S10, T-S11. -/
theorem test_sne_reg : (after 0x9120 (launch.withV [0, 7, 7])).pc = 0x202 ∧
    (after 0x9120 (launch.withV [0, 7, 8])).pc = 0x204 ∧ (after 0x9330 (launch.setV 3 9)).pc = 0x202 := by decide

/-- T-S12. -/
theorem test_sne_reg_illegal : (after 0x912F launch).status = .faulted .unimplementedOpcode (some 0x912F) 0x200 := by decide

/-- T-M1. -/
theorem test_ld_i : (after 0xA123 { launch with i := 0xFFFF }).i = 0x123 := by decide

/-- T-F13, T-F15. -/
theorem test_jp_v0 : (after 0xBFFF (launch.setV 0 0xFF)).pc = 0x10FE ∧ (after 0xB200 launch).pc = 0x200 ∧
    (after 0xB200 launch).status = .running := by decide

/-- T-A13. -/
theorem test_rnd : (after 0xC30F ({ launch with randInputs := [0xA7, 0x11] }.withVF 1)).getV 3 = 0x07 ∧
    (after 0xC30F { launch with randInputs := [0xA7, 0x11] }).randInputs = [0x11] := by decide

/-- T-A15. -/
theorem test_rnd_all : (after 0xC3FF { launch with randInputs := [0xA7] }).getV 3 = 0xA7 := by decide

/-- The sprite of T-D5 in memory, I at it, and its origin at (60, 31). -/
def corner : State := { (launch.withV [60, 31]).withMem 0x300 [0xFF, 0x81] with i := 0x300 }

/-- T-D5: the wrap in both directions. -/
theorem test_drw_wraps : (after 0xD012 corner).fb[255] = 0x0F ∧ (after 0xD012 corner).fb[248] = 0xF0 ∧
    (after 0xD012 corner).fb[7] = 0x08 ∧ (after 0xD012 corner).fb[0] = 0x10 ∧ (after 0xD012 corner).getV 15 = 0 := by decide

/-- T-D9: the collision. -/
theorem test_drw_collides : (after 0xD011 { (launch.withMem 0x300 [0x18]).withFb 0 0x0F with i := 0x300 }).fb[0] = 0x17 ∧
    (after 0xD011 { (launch.withMem 0x300 [0x18]).withFb 0 0x0F with i := 0x300 }).getV 15 = 1 := by decide

/-- T-K1, T-K2, T-K3. -/
theorem test_skp : (after 0xE59E { launch.setV 5 5 with kp := 0x20 }).pc = 0x204 ∧
    (after 0xE59E { launch.setV 5 5 with kp := 0xFFDF }).pc = 0x202 ∧
    (after 0xE59E { launch.setV 5 0x15 with kp := 0x20 }).pc = 0x204 := by decide

/-- T-K4, T-K5. -/
theorem test_sknp : (after 0xE5A1 { launch.setV 5 5 with kp := 0x20 }).pc = 0x202 ∧
    (after 0xE5A1 (launch.setV 5 5)).pc = 0x204 := by decide

/-- T-K11. -/
theorem test_ld_vx_dt : (after 0xF207 { launch with dt := 0x2A }).getV 2 = 0x2A ∧
    (after 0xF207 { launch with dt := 0x2A }).dt = 0x2A := by decide

/-- T-K8, T-K9, T-K10. -/
theorem test_ld_vx_k : (after 0xF30A { launch.setV 3 9 with kp := 0x90 }).getV 3 = 4 ∧
    (after 0xF30A { launch with kp := 0x8000 }).getV 3 = 15 ∧ (after 0xF30A { launch.setV 3 9 with kp := 1 }).getV 3 = 0 := by
  decide

/-- T-K7: nothing is written, PC stays, and the execute phase is over. -/
theorem test_ld_vx_k_waits : (after 0xF30A { launch.setV 3 9 with pc := 0x230 }).pc = 0x230 ∧
    (after 0xF30A { launch.setV 3 9 with pc := 0x230 }).getV 3 = 9 ∧
    (after 0xF30A { launch.setV 3 9 with pc := 0x230 }).phase = .finish := by decide

/-- T-K12. -/
theorem test_ld_dt_vx : (after 0xF215 (launch.setV 2 0x3C)).dt = 0x3C := by decide

/-- T-K13. -/
theorem test_ld_st_vx : (after 0xF018 (launch.setV 0 0x10)).st = 0x10 := by decide

/-- T-M2, T-M3. -/
theorem test_add_i : (after 0xF21E { launch.setV 2 1 with i := 0xFFF }).i = 0x1000 ∧
    (after 0xF21E { launch.setV 2 1 with i := 0xFFF }).getV 15 = 0 ∧ (after 0xF21E { launch.setV 2 2 with i := 0xFFFF }).i = 1 := by
  decide

/-- T-M5, T-M6. -/
theorem test_ld_f : (after 0xF429 (launch.setV 4 0x0A)).i = 0x32 ∧ (after 0xF429 (launch.setV 4 0xFF)).i = 0x4FB := by decide

/-- T-M7 with 254, and T-M9. -/
theorem test_ld_b : (after 0xF533 { launch.setV 5 254 with i := 0x300 }).mem.readBytes 0x300 3 = [2, 5, 4] ∧
    (after 0xF533 { launch.setV 5 254 with i := 0x300 }).i = 0x300 ∧
    (after 0xF533 { launch.setV 5 255 with i := 0xFFE }).mem.read 0xFFE = 0 := by decide

/-- T-M8, T-M9. -/
theorem test_ld_b_edge : (after 0xF533 { launch.setV 5 255 with i := 0xFFD }).mem.read 0xFFF = 5 ∧
    (after 0xF533 { launch.setV 5 255 with i := 0xFFE }).status = .faulted .memoryOutOfRange (some 0xF533) 0x200 := by decide

/-- T-M10. -/
theorem test_st_regs :
    (after 0xF255 { launch.withV [0x11, 0x22, 0x33, 0x44] with i := 0x400 }).mem.readBytes 0x400 4 = [0x11, 0x22, 0x33, 0] ∧
    (after 0xF255 { launch.withV [0x11, 0x22, 0x33, 0x44] with i := 0x400 }).i = 0x400 := by decide

/-- T-M11, T-M12. -/
theorem test_st_regs_edge : (after 0xF055 { launch.withV [0x11] with i := 0xFFF }).mem.read 0xFFF = 0x11 ∧
    (after 0xF155 { launch.withV [0x11, 0x22] with i := 0xFFF }).status = .faulted .memoryOutOfRange (some 0xF155) 0x200 ∧
    (after 0xF155 { launch.withV [0x11, 0x22] with i := 0xFFF }).mem.read 0xFFF = 0 := by decide

/-- T-M14. -/
theorem test_ld_regs :
    (after 0xF265 { (launch.setV 3 0x99).withMem 0x400 [0x0A, 0x0B, 0x0C, 0x0D] with i := 0x400 }).v.toList.take 4 =
      [0x0A, 0x0B, 0x0C, 0x99] := by decide

/-- T-M16. -/
theorem test_ld_regs_edge :
    (after 0xFF65 { launch with i := 0xFF1 }).status = .faulted .memoryOutOfRange (some 0xFF65) 0x200 := by decide

/-- T-X6, T-X7: the PC test of the cycle. -/
theorem test_illegal_pc :
    (match step { launch with pc := 0x1000, phase := .execute 0 } with
      | .next t => t.status
      | .fault _ => .running
      | .refused _ => .running) = .faulted .misalignedProgramCounter none 0x1000 ∧
    (match step { launch with pc := 0x203, phase := .execute 0 } with
      | .next t => t.status
      | .fault _ => .running
      | .refused _ => .running) = .faulted .misalignedProgramCounter none 0x203 := by decide

/-- T-T1: one `TimersTick()`. -/
theorem test_timers : ({ launch with dt := 5, st := 1 } : State).timersTick.dt = 4 ∧
    ({ launch with dt := 5, st := 1 } : State).timersTick.st = 0 ∧ launch.timersTick.dt = 0 := by decide

/-- S11, R256. -/
theorem test_load_error : loadError [] = some .emptyRom ∧ loadError [0x12, 0x00] = none := by decide

/-- From `State.reset` with nothing placed, the first step begins a tick and fetches nothing (log entry 1). -/
theorem test_first_step : step State.reset = .next (beginTick State.reset) := by rfl

/-! ### Witnesses: for each obligation with hypotheses, a concrete state and operands that meet them, at the boundary values of
each clause. Each theorem is named after the obligation. -/

/-- The launch state in the execute phase. -/
def running : State := { launch with phase := .execute 0 }

/-- `0x300..0x301` hold FX55's two registers' bytes `12 0A`, with I = 0x300. -/
def storing : State := { running.withV [0x12, 0x0A] with i := 0x300 }

theorem wit_EncodeOfDecodeIsIdentity : decodeWord 0x834E = .ok (.shl 3 4) := by decide

theorem wit_DecodableWordsAreTheTable : decodeWord 0x00EE = .ok .ret ∧ decodeWord 0x00EF = .error (.unimplemented 0x00EF) := by
  decide

theorem wit_IllegalWordsByGroup : decodeWord 0x0000 = .error (.unimplemented 0x0000) ∧
    decodeWord 0x5FFF = .error (.unimplemented 0x5FFF) ∧ decodeWord 0x800F = .error (.unimplemented 0x800F) ∧
    decodeWord 0x9001 = .error (.unimplemented 0x9001) ∧ decodeWord 0xE09D = .error (.unimplemented 0xE09D) ∧
    decodeWord 0xFF66 = .error (.unimplemented 0xFF66) := by decide

/-- The clause `X ≠ 0xF`, at its boundary. -/
theorem wit_AddWithCarryResult : (14 : Reg) ≠ 15 := by decide
theorem wit_SubtractResult : (14 : Reg) ≠ 15 := by decide
theorem wit_ReverseSubtractResult : (14 : Reg) ≠ 15 := by decide
theorem wit_ShiftResults : (14 : Reg) ≠ 15 := by decide

theorem wit_RandomByteMasked : ({ launch with randInputs := [0xA7] } : State).randInputs = 0xA7 :: [] ∧
    launch.randInputs = [] := by decide

theorem wit_ReturnPopsOrUnderflows : 0 < ({ launch with sp := 1 } : State).sp.val ∧
    0 < ({ launch with sp := 16 } : State).sp.val ∧ launch.sp.val = 0 := by decide

theorem wit_JumpOrSelfLoopHalt : (0x200 : Addr).toNat = launch.pc.toNat ∧ (0x201 : Addr).toNat ≠ launch.pc.toNat ∧
    (0xFFF : Addr).toNat ≠ launch.pc.toNat := by decide

theorem wit_CallPushesOrOverflows : launch.sp.val < 16 ∧ ({ launch with sp := 15 } : State).sp.val < 16 ∧
    ({ launch with sp := 16 } : State).sp.val = 16 := by decide

theorem wit_CallThenReturnRoundTrip : ({ launch with sp := 15 } : State).sp.val < 16 := by decide

theorem wit_SkipOnRegisters : opField 0x5121 = 5 ∧ nField 0x5121 ≠ 0 ∧ opField 0x912F = 9 ∧ nField 0x912F ≠ 0 := by decide

/-- The words whose fields the encoding clauses of LoadImmediateResult, AddImmediateWraps, CopyAndLogicResults, IndexLoads and
StoreRegistersResult read. -/
theorem wit_LoadImmediateResult : opField 0x6A7F = 0x6 := by decide
theorem wit_AddImmediateWraps : opField 0x7F02 = 0x7 := by decide
theorem wit_CopyAndLogicResults : opField 0x8FF0 = 0x8 ∧ nField 0x8FF0 = 0 ∧ nField 0x8121 = 1 ∧ nField 0x8122 = 2 ∧
    nField 0x8123 = 3 := by decide
theorem wit_IndexLoads : opField 0xAFFF = 0xA ∧ opField 0xFF29 = 0xF ∧ nnField 0xFF29 = 0x29 := by decide

theorem wit_DecimalDigitsStored : ({ launch with i := 0xFFD } : State).i.toNat + 2 ≤ 4095 ∧
    ({ launch with i := 0xFFE } : State).i.toNat + 2 > 4095 ∧ ({ launch with i := 0xFFFF } : State).i.toNat + 2 > 4095 := by
  decide

theorem wit_StoreRegistersResult : opField 0xFF55 = 0xF ∧ nnField 0xFF55 = 0x55 ∧
    ({ launch with i := 0xFF0 } : State).i.toNat + (15 : Reg).val ≤ 4095 ∧
    ({ launch with i := 0xFF1 } : State).i.toNat + (15 : Reg).val > 4095 ∧ (0 : Reg) ≤ 15 ∧ (15 : Reg) ≤ 15 := by decide

theorem wit_LoadRegistersResult : ({ launch with i := 0xFFF } : State).i.toNat + (0 : Reg).val ≤ 4095 ∧
    ({ launch with i := 0x1000 } : State).i.toNat + (0 : Reg).val > 4095 := by decide

theorem wit_DrawOutOfRangeFaults : 0 < (1 : Nibble).toNat ∧
    ({ launch with i := 0x1000 } : State).i.toNat + (1 : Nibble).toNat - 1 > 4095 ∧
    ({ launch with i := 0xFF2 } : State).i.toNat + (15 : Nibble).toNat - 1 > 4095 ∧ (0 : Nibble).toNat = 0 := by decide

theorem wit_StoreThenLoadRestores : ({ launch with i := 0xFF1 } : State).i.toNat + (14 : Reg).val ≤ 4095 ∧
    (14 : Reg) ≤ 14 ∧ (14 : Reg) < 15 := by decide

theorem wit_StoredWordIsExecuted : storing.i.toNat + (1 : Reg).val ≤ 4095 ∧ (1 : Reg).val = (0 : Reg).val + 1 ∧ (1 : Reg) ≤ 1 ∧
    decodeWord (wordOfBytes (storing.getV 0) (storing.getV 1)) = .ok (.jp 0x20A) ∧
    ∃ t, exec (.stRegs 1) storing = .next t ∧
      ({ t with pc := 0x300 } : State).pc.toNat = storing.i.toNat + (0 : Reg).val ∧
      legalPc ({ t with pc := 0x300 } : State).pc = true ∧ ({ t with pc := 0x300 } : State).status = .running ∧
      ({ t with pc := 0x300 } : State).phase = .execute 0 :=
  ⟨by decide, by decide, by decide, by decide, _, rfl, rfl, by decide, rfl, rfl⟩

theorem wit_DrawTogglesSpritePixels : ({ launch.withV [63, 31] with i := 0xFF1 } : State).i.toNat + (15 : Nibble).toNat ≤ 4096 ∧
    (({ launch.withV [63, 31] with i := 0xFF1 } : State).getV 0).toNat < 64 ∧
    (({ launch.withV [63, 31] with i := 0xFF1 } : State).getV 1).toNat < 32 := by decide

/-- T-D9: a pixel on row 0 goes from 1 to 0. -/
def colliding : State := { (launch.withMem 0x300 [0x18]).withFb 0 0x0F with i := 0x300 }

theorem wit_DrawReportsCollision : 0 < (1 : Nibble).toNat ∧ colliding.i.toNat + (1 : Nibble).toNat ≤ 4096 ∧
    (colliding.getV 0).toNat < 64 ∧ (colliding.getV 1).toNat < 32 ∧
    ∃ t, exec (.drw 0 1 1) colliding = .next t ∧ PixelCleared colliding.fb t.fb :=
  ⟨by decide, by decide, by decide, by decide, _, rfl, 4, 0, by decide, by decide, by decide, by decide⟩

theorem wit_DrawReportsCollision_none : ∃ t, exec (.drw 0 1 1) launch = .next t ∧ ¬ PixelCleared launch.fb t.fb := by
  refine ⟨_, rfl, ?_⟩
  rintro ⟨px, py, _, _, h, _⟩
  have hz : ∀ k : Fin 256, launch.fb[k] = 0 := fun k => by simp [launch, State.resetWith]
  simp [pixel, hz] at h

theorem wit_DrawNothingCases : (0 : Nibble).toNat = 0 ∧ ({ launch with i := 0xFFF } : State).i.toNat + (1 : Nibble).toNat ≤ 4096 ∧
    64 ≤ ((launch.withV [64, 0]).getV 0).toNat ∧ 32 ≤ ((launch.withV [0, 32]).getV 1).toNat := by decide

theorem wit_DrawTwiceRestores : corner.i.toNat + (2 : Nibble).toNat ≤ 4096 ∧ (0 : Nibble).toNat = 0 := by decide

theorem wit_WaitKeyResult : launch.kp = 0 ∧ ({ launch with kp := 0x8000 } : State).kp ≠ 0 := by decide

theorem wit_AccessMatrix : ∃ t, exec (.ldRegs 14) launch = .next t ∧ writesRegister (.ldRegs 14) 15 = false :=
  ⟨_, rfl, by decide⟩

theorem wit_FlagIsZeroOrOne : definesFlag (.addReg 15 15) = true ∧ launch.status = .running ∧
    ∃ t, exec (.addReg 15 15) launch = .next t ∧ t.status = .running := ⟨rfl, rfl, _, rfl, rfl⟩

theorem wit_StopsArePrecise : launch.status = .running ∧ ∃ t, exec .ret launch = .next t ∧ t.status ≠ .running :=
  ⟨rfl, _, rfl, by decide⟩

theorem wit_SoundTimerNeverRead : (∃ x, Instr.ldStVx 3 = .ldStVx x) ∧ ∀ x, Instr.ldDtVx 3 ≠ .ldStVx x :=
  ⟨⟨3, rfl⟩, fun _ => by simp⟩

theorem wit_VacatedStackUnobservable :
    SameButVacatedStack { launch with sp := 1 } { launch with sp := 1, stack := launch.stack.set 1 0x202 } :=
  ⟨rfl, by decide⟩

/-- The word 0x1ABC at PC (T-F1), the last opcode slot but one of the tick. -/
def jumping : State := { launch.withFetchWord 16 0x1ABC with phase := .execute 6 }

theorem wit_StepRunsDecodedInstruction : jumping.phase = .execute 6 ∧ jumping.status = .running ∧ legalPc jumping.pc = true ∧
    decodeBytes [jumping.mem.read jumping.pc.toNat, jumping.mem.read (jumping.pc.toNat + 1)] = .ok (.jp 0xABC, []) ∧
    ∃ t, exec (.jp 0xABC) jumping = .next t ∧ t.status = .running ∧ 6 + 1 < jumping.opcodesPerFrame :=
  ⟨rfl, rfl, by decide, by decide, _, rfl, rfl, by decide⟩

/-- T-X5, T-X6, T-X7. -/
theorem wit_StepFaultsOnIllegalPc : running.phase = .execute 0 ∧ running.status = .running ∧
    ({ running with pc := 0x203 } : State).pc.toNat % 2 = 1 ∧ ({ running with pc := 0x1FE } : State).pc.toNat < 0x200 ∧
    ({ running with pc := 0x1000 } : State).pc.toNat ≥ 4096 := by decide

/-- No instruction's word is 0x0000 (T-X1). -/
theorem wit_StepFaultsOnIllegalWord : running.phase = .execute 0 ∧ running.status = .running ∧ legalPc running.pc = true ∧
    ∀ i, encode i ≠ wordOfBytes (running.mem.read running.pc.toNat) (running.mem.read (running.pc.toNat + 1)) := by
  refine ⟨rfl, rfl, by decide, fun i h => ?_⟩
  have hw : wordOfBytes (running.mem.read running.pc.toNat) (running.mem.read (running.pc.toNat + 1)) = 0 := by decide
  rw [hw] at h
  have ho := congrArg opField h
  rw [show opField (0 : Word) = 0 from by decide] at ho
  cases i <;> simp [encode] at h ho

/-- The word 0x1200 at PC = 0x200 (T-F2). -/
def looping : State := launch.withFetchWord 16 0x1200

theorem wit_SelfLoopEndsTheRun : looping.phase = .execute 0 ∧ looping.status = .running ∧ legalPc looping.pc = true ∧
    looping.fetchWord = encode (.jp 0x200) ∧ (0x200 : Addr).toNat = looping.pc.toNat := by decide

theorem wit_StoppedEngineStaysStopped : ({ launch with status := .halted 0x1200 0x200, phase := .finish } : State).status ≠ .running ∧
    (∃ t, step { launch with status := .halted 0x1200 0x200, phase := .finish } = .next t) ∧
    ({ launch with status := .halted 0x1200 0x200 } : State).phase = .between := ⟨by decide, ⟨_, rfl⟩, rfl⟩

theorem wit_TickIsItsSteps : launch.phase = .between ∧ launch.status = .running ∧ 0 < launch.opcodesPerFrame := by decide

theorem wit_BeginTickLatchesKeys : launch.phase = .between ∧ launch.status = .running ∧ launch.keyInputs = [] ∧
    ({ launch with keyInputs := [0x90] } : State).keyInputs = 0x90 :: [] := by decide

theorem wit_TimersCountDownPerTick : ({ launch with phase := .finish } : State).phase = .finish ∧
    launch.phase ≠ .finish ∧ (∃ t, step launch = .next t) ∧ ({ launch with dt := 5 } : State).dt = 5 :=
  ⟨rfl, by decide, ⟨_, rfl⟩, rfl⟩

/-- FX15 and FX18 change a timer within a tick. -/
theorem wit_TimersCountDownPerTick_execute : ∃ t, step ((launch.setV 2 0x3C).withFetchWord 16 0xF218) = .next t ∧
    t.st ≠ ((launch.setV 2 0x3C).withFetchWord 16 0xF218).st := ⟨_, rfl, by decide⟩

theorem wit_PresentOnlyWhenDirty : ({ launch with phase := .finish, dirty := true } : State).phase = .finish ∧
    ({ launch with phase := .finish, dirty := true } : State).dirty = true ∧
    ({ launch with phase := .finish } : State).phase = .finish ∧ ({ launch with phase := .finish } : State).dirty = false :=
  ⟨rfl, rfl, rfl, rfl⟩

/-- FX15 changes DT within the group (T-K12). -/
theorem wit_KeypadAndTimersFixedInGroup : ((launch.setV 2 0x3C).withFetchWord 16 0xF215).phase = .execute 0 ∧
    ∃ t, step ((launch.setV 2 0x3C).withFetchWord 16 0xF215) = .next t ∧
      t.dt ≠ ((launch.setV 2 0x3C).withFetchWord 16 0xF215).dt := ⟨rfl, _, rfl, by decide⟩

theorem wit_ResetMeetsInvariant : 0 < 1 := by decide

/-- A state that meets the invariant and steps: stopped by a fault, in the present+tick phase. -/
def faulted : State := { launch with status := .faulted .unimplementedOpcode (some 0) 0x200, phase := .finish }

theorem wit_StepKeepsInvariant : Inv faulted ∧ ∃ t, step faulted = .next t :=
  ⟨{ memory := by decide, pcBound := by decide, stackBound := by decide, loadedBound := by decide, framePositive := by decide,
     countBound := fun _ h => (by simp [faulted] at h), stoppedLeaves := fun _ _ h => (by simp [faulted] at h),
     shownBetween := fun h => (by simp [faulted] at h), record := ⟨rfl, by decide, by decide, by decide⟩ }, _, rfl⟩

theorem wit_LoadRomResult : 3583 < 3584 ∧ (List.replicate 3584 (0x12 : Byte))[3583]? = some 0x12 ∧ 0x1FF < 0x200 ∧
    0x200 + min (List.replicate 3584 (0x12 : Byte)).length 3584 ≤ 4096 ∧ ([] : List Byte).length = 0 ∧
    (List.replicate 3585 (0x12 : Byte)).length > 3584 := by
  refine ⟨by decide, ?_, by decide, ?_, rfl, ?_⟩
  · rw [List.getElem?_replicate]; rfl
  · rw [List.length_replicate]; decide
  · rw [List.length_replicate]; decide

theorem wit_BootRunsFirstWord : ([] : List Byte).length = 0 ∧ (List.replicate 3585 (0x12 : Byte)).length > 3584 ∧
    0 < ([0x12, 0x00] : List Byte).length ∧ ([0x12, 0x00] : List Byte).length ≤ 3584 ∧
    decodeWord (wordOfBytes (([0x12, 0x00] : List Byte).getD 0 0) (([0x12, 0x00] : List Byte).getD 1 0)) = .ok (.jp 0x200) := by
  refine ⟨rfl, ?_, by decide, by decide, by decide⟩
  rw [List.length_replicate]; decide

end Sys2Proof.Tests
end

/-! PROOFS. 42_alu.md: the immediate, copy and logic instructions, which write one register and step PC (R130 to R135). -/

namespace Sys2Proof

/-! ### What the decoder reads by high nibble and, in group 8, by low nibble (R85) -/

theorem decodeWord_of_op6 {w : Word} (h : opField w = 0x6) : decodeWord w = .ok (.ldImm (xReg w) (nnField w)) := by
  simp [decodeWord, h]

theorem decodeWord_of_op7 {w : Word} (h : opField w = 0x7) : decodeWord w = .ok (.addImm (xReg w) (nnField w)) := by
  simp [decodeWord, h]

theorem decodeWord_of_op8 {w : Word} (h : opField w = 0x8) : decodeWord w = decodeGroup8 w := by
  simp [decodeWord, h]

theorem decodeGroup8_of_n0 {w : Word} (h : nField w = 0) : decodeGroup8 w = .ok (.ldReg (xReg w) (yReg w)) := by
  simp [decodeGroup8, h]

theorem decodeGroup8_of_n1 {w : Word} (h : nField w = 1) : decodeGroup8 w = .ok (.orReg (xReg w) (yReg w)) := by
  simp [decodeGroup8, h]

theorem decodeGroup8_of_n2 {w : Word} (h : nField w = 2) : decodeGroup8 w = .ok (.andReg (xReg w) (yReg w)) := by
  simp [decodeGroup8, h]

theorem decodeGroup8_of_n3 {w : Word} (h : nField w = 3) : decodeGroup8 w = .ok (.xorReg (xReg w) (yReg w)) := by
  simp [decodeGroup8, h]

namespace Machine

/-! ### The state each instruction answers: one register written, then PC stepped -/

theorem exec_ldImm (x : Reg) (nn : Byte) (s : State) : exec (.ldImm x nn) s = .next (s.setV x nn).advance := rfl

theorem exec_addImm (x : Reg) (nn : Byte) (s : State) :
    exec (.addImm x nn) s = .next (s.setV x (s.getV x + nn)).advance := rfl

theorem exec_ldReg (x y : Reg) (s : State) : exec (.ldReg x y) s = .next (s.setV x (s.getV y)).advance := rfl

theorem exec_orReg (x y : Reg) (s : State) : exec (.orReg x y) s = .next (s.setV x (s.getV x ||| s.getV y)).advance := rfl

theorem exec_andReg (x y : Reg) (s : State) :
    exec (.andReg x y) s = .next (s.setV x (s.getV x &&& s.getV y)).advance := rfl

theorem exec_xorReg (x y : Reg) (s : State) :
    exec (.xorReg x y) s = .next (s.setV x (s.getV x ^^^ s.getV y)).advance := rfl

/-! ### What writing one register and stepping PC does, and what it leaves unchanged -/

theorem getV_setV_advance (s : State) (x : Reg) (b : Byte) : (s.setV x b).advance.getV x = b := by simp

theorem keepsRegistersBut_setV_advance (s : State) (x : Reg) (b : Byte) :
    KeepsRegistersBut [x] s (s.setV x b).advance := by
  intro r hr
  have hne : r ≠ x := fun h => hr (List.mem_singleton.mpr h)
  rw [State.advance_eq, State.setPc_getV, State.getV_setV_other s b hne]

theorem keepsAllBut_registers_setV_advance (s : State) (x : Reg) (b : Byte) :
    KeepsAllBut [.registers] s (s.setV x b).advance := by
  intro p hp
  cases p with
  | registers => exact absurd (List.mem_singleton.mpr rfl) hp
  | _ => simp [Part.same]

/-- The frame of rules R130 to R135: the state every one of these instructions answers differs in `V[X]` and PC alone. -/
theorem setV_advance_frame (s : State) (x : Reg) (b : Byte) :
    KeepsRegistersBut [x] s (s.setV x b).advance ∧ (s.setV x b).advance.pc = s.pc + 2 ∧
      KeepsAllBut [.registers] s (s.setV x b).advance :=
  ⟨keepsRegistersBut_setV_advance s x b, rfl, keepsAllBut_registers_setV_advance s x b⟩

/-! ### The obligations -/

/-- Settles O6: `V[X]` is written with NN and PC stepped, in every state. -/
theorem loadImmediateResult : Obligations.LoadImmediateResult :=
  ⟨fun _ => decodeWord_of_op6, fun x nn s =>
    ⟨_, exec_ldImm x nn s, getV_setV_advance s x nn, setV_advance_frame s x nn⟩⟩

/-- Settles O7: the value written is the 8-bit sum, which is the exact sum modulo 256. -/
theorem addImmediateWraps : Obligations.AddImmediateWraps := by
  refine ⟨fun _ => decodeWord_of_op7, fun x nn s => ⟨_, exec_addImm x nn s, ?_, setV_advance_frame s x _⟩⟩
  rw [getV_setV_advance, BitVec.toNat_add]

/-- Settles O8: the value written is the copy, or, and, exclusive or of the operands as they were before. -/
theorem copyAndLogicResults : Obligations.CopyAndLogicResults := by
  refine ⟨fun w hop => ?_, fun x y s => ⟨?copy, ?or, ?and, ?xor⟩⟩
  · rw [decodeWord_of_op8 hop]
    exact ⟨decodeGroup8_of_n0, decodeGroup8_of_n1, decodeGroup8_of_n2, decodeGroup8_of_n3⟩
  case copy => exact ⟨_, exec_ldReg x y s, getV_setV_advance s x _, setV_advance_frame s x _⟩
  case or =>
    refine ⟨_, exec_orReg x y s, fun k _ => ?_, setV_advance_frame s x _⟩
    rw [getV_setV_advance, BitVec.getLsbD_or]
  case and =>
    refine ⟨_, exec_andReg x y s, fun k _ => ?_, setV_advance_frame s x _⟩
    rw [getV_setV_advance, BitVec.getLsbD_and]
  case xor =>
    refine ⟨_, exec_xorReg x y s, fun k _ => ?_, setV_advance_frame s x _⟩
    rw [getV_setV_advance, BitVec.getLsbD_xor]

end Machine

end Sys2Proof

/-! PROOFS. 43_index_memory.md: ANNN and FX29, which write the index register and step PC (R150, R152). -/

namespace Sys2Proof

/-! ### What the decoder reads in groups A and F (R85) -/

theorem decodeWord_of_opA {w : Word} (h : opField w = 0xA) : decodeWord w = .ok (.ldI (nnnField w)) := by
  simp [decodeWord, h]

theorem decodeWord_of_opF {w : Word} (h : opField w = 0xF) : decodeWord w = decodeGroupF w := by
  simp [decodeWord, h]

theorem decodeGroupF_of_nn29 {w : Word} (h : nnField w = 0x29) : decodeGroupF w = .ok (.ldF (xReg w)) := by
  simp [decodeGroupF, h]

namespace Machine

/-! ### The values loaded -/

/-- A value of at most 16 bits keeps its number when it is widened to a word. -/
theorem toNat_zext16 {n : Nat} (hn : n ≤ 16) (v : BitVec n) : (zext16 v).toNat = v.toNat :=
  BitVec.toNat_setWidth_of_le hn

/-- The whole byte is multiplied (R152): `255 * 5` fits a word, so the product is exact. -/
theorem toNat_glyphAddress (b : Byte) : (glyphAddress b).toNat = b.toNat * 5 := by
  have hfits : b.toNat * 5 < 2 ^ 16 := by omega
  rw [glyphAddress, BitVec.toNat_mul, toNat_zext16 (by decide)]
  exact Nat.mod_eq_of_lt hfits

/-! ### The state each instruction answers: I written, then PC stepped -/

theorem exec_ldI (nnn : Addr) (s : State) : exec (.ldI nnn) s = .next (s.setI (zext16 nnn)).advance := rfl

theorem exec_ldF (x : Reg) (s : State) : exec (.ldF x) s = .next (s.setI (glyphAddress (s.getV x))).advance := rfl

/-- Writing I and stepping PC leaves every other part as it was. -/
theorem keepsAllBut_index_setI_advance (s : State) (w : Word) : KeepsAllBut [.index] s (s.setI w).advance := by
  intro p hp
  cases p with
  | index => exact absurd (List.mem_singleton.mpr rfl) hp
  | _ => simp [Part.same]

/-! ### The obligation -/

/-- Settles O22: I is written with NNN, or with the exact product `V[X] * 5`, and PC stepped, in every state. -/
theorem indexLoads : Obligations.IndexLoads := by
  refine ⟨fun w => ⟨decodeWord_of_opA, fun hop hnn => ?decodeF⟩, fun nnn s => ?ldI, fun x s => ?ldF⟩
  case decodeF => rw [decodeWord_of_opF hop, decodeGroupF_of_nn29 hnn]
  case ldI => exact ⟨_, exec_ldI nnn s, toNat_zext16 (by decide) nnn, rfl, keepsAllBut_index_setI_advance s _⟩
  case ldF => exact ⟨_, exec_ldF x s, toNat_glyphAddress (s.getV x), rfl, keepsAllBut_index_setI_advance s _⟩

end Machine

end Sys2Proof

/-! PROOFS. 30_encoding.md: the decoder and the encoder are inverse to each other, the decoder accepts exactly the words of the
opcode table, and the illegal words group by group (R85 to R88). -/

namespace Sys2Proof

/-! ### What the decoder reads by high nibble (R85), beside groups 6, 7, 8, A and F -/

theorem decodeWord_of_op0 {w : Word} (h : opField w = 0x0) : decodeWord w = decodeGroup0 w := by
  simp [decodeWord, h]

theorem decodeWord_of_op1 {w : Word} (h : opField w = 0x1) : decodeWord w = .ok (.jp (nnnField w)) := by
  simp [decodeWord, h]

theorem decodeWord_of_op2 {w : Word} (h : opField w = 0x2) : decodeWord w = .ok (.call (nnnField w)) := by
  simp [decodeWord, h]

theorem decodeWord_of_op3 {w : Word} (h : opField w = 0x3) : decodeWord w = .ok (.seImm (xReg w) (nnField w)) := by
  simp [decodeWord, h]

theorem decodeWord_of_op4 {w : Word} (h : opField w = 0x4) : decodeWord w = .ok (.sneImm (xReg w) (nnField w)) := by
  simp [decodeWord, h]

theorem decodeWord_of_op5 {w : Word} (h : opField w = 0x5) : decodeWord w =
    if nField w = 0 then .ok (.seReg (xReg w) (yReg w)) else .error (.unimplemented w) := by
  simp [decodeWord, h]

theorem decodeWord_of_op9 {w : Word} (h : opField w = 0x9) : decodeWord w =
    if nField w = 0 then .ok (.sneReg (xReg w) (yReg w)) else .error (.unimplemented w) := by
  simp [decodeWord, h]

theorem decodeWord_of_opB {w : Word} (h : opField w = 0xB) : decodeWord w = .ok (.jpV0 (nnnField w)) := by
  simp [decodeWord, h]

theorem decodeWord_of_opC {w : Word} (h : opField w = 0xC) : decodeWord w = .ok (.rnd (xReg w) (nnField w)) := by
  simp [decodeWord, h]

theorem decodeWord_of_opD {w : Word} (h : opField w = 0xD) :
    decodeWord w = .ok (.drw (xReg w) (yReg w) (nField w)) := by
  simp [decodeWord, h]

theorem decodeWord_of_opE {w : Word} (h : opField w = 0xE) : decodeWord w = decodeGroupE w := by
  simp [decodeWord, h]

/-! ### Decode of encode -/

/-- In each format the fields of the encoded word are the operands, and what the decoder tests is what the row fixes. -/
theorem decodeWord_encode (i : Instr) : decodeWord (encode i) = .ok i := by
  cases i with
  | cls | ret => decide
  | _ => simp [decodeWord, decodeGroup8, decodeGroupE, decodeGroupF, encode]

/-- Settles O2: the word's fields are the operands, and the word's two bytes make the word again. -/
theorem decodeOfEncodeIsIdentity : Obligations.DecodeOfEncodeIsIdentity := by
  refine fun i => ⟨decodeWord_encode i, fun rest => ?_⟩
  simp only [encodeBytes, List.cons_append, List.nil_append, decodeBytes, Machine.wordOfBytes_bytes, decodeWord_encode]
  rfl

/-! ### Encode of decode -/

/-- A word of format A is made by the fields the decoder has read (R83); the other formats follow. -/
theorem encodeA_of_op {w : Word} {op : Nibble} (h : opField w = op) : encodeA op (nnnField w) = w := by
  rw [← h, encodeA_fields]

theorem encodeRI_of_op {w : Word} {op : Nibble} (h : opField w = op) : encodeRI op (xReg w) (nnField w) = w := by
  rw [← h, encodeRI_fields]

theorem encodeRI_of_op_nn {w : Word} {op : Nibble} {nn : Byte} (h : opField w = op) (hn : nnField w = nn) :
    encodeRI op (xReg w) nn = w := by
  rw [← hn, encodeRI_of_op h]

theorem encodeRRN_of_op_n {w : Word} {op n : Nibble} (h : opField w = op) (hn : nField w = n) :
    encodeRRN op (xReg w) (yReg w) n = w := by
  rw [← h, ← hn, encodeRRN_fields]

theorem encode_of_decodeGroup0 {w : Word} {i : Instr} (h : decodeGroup0 w = .ok i) : encode i = w := by
  unfold decodeGroup0 at h
  split at h
  case isTrue hw => cases h; exact hw.symm
  case isFalse =>
    split at h
    case isTrue hw => cases h; exact hw.symm
    case isFalse => cases h

theorem encode_of_decodeGroup8 {w : Word} {i : Instr} (hop : opField w = 0x8) (h : decodeGroup8 w = .ok i) :
    encode i = w := by
  unfold decodeGroup8 at h
  split at h <;> cases h <;> exact encodeRRN_of_op_n hop ‹_›

theorem encode_of_decodeGroupE {w : Word} {i : Instr} (hop : opField w = 0xE) (h : decodeGroupE w = .ok i) :
    encode i = w := by
  unfold decodeGroupE at h
  split at h <;> cases h <;> exact encodeRI_of_op_nn hop ‹_›

theorem encode_of_decodeGroupF {w : Word} {i : Instr} (hop : opField w = 0xF) (h : decodeGroupF w = .ok i) :
    encode i = w := by
  unfold decodeGroupF at h
  split at h <;> cases h <;> exact encodeRI_of_op_nn hop ‹_›

theorem nibble_cases (n : Nibble) : n = 0x0 ∨ n = 0x1 ∨ n = 0x2 ∨ n = 0x3 ∨ n = 0x4 ∨ n = 0x5 ∨ n = 0x6 ∨ n = 0x7 ∨
    n = 0x8 ∨ n = 0x9 ∨ n = 0xA ∨ n = 0xB ∨ n = 0xC ∨ n = 0xD ∨ n = 0xE ∨ n = 0xF := by
  revert n; decide

/-- Settles O3: group by group, the fields the decoder reads and the bits it tests are all the bits of the word. -/
theorem encodeOfDecodeIsIdentity : Obligations.EncodeOfDecodeIsIdentity := by
  intro w i h
  rcases nibble_cases (opField w) with
    hop | hop | hop | hop | hop | hop | hop | hop | hop | hop | hop | hop | hop | hop | hop | hop
  · exact encode_of_decodeGroup0 (decodeWord_of_op0 hop ▸ h)
  · cases decodeWord_of_op1 hop ▸ h; exact encodeA_of_op hop
  · cases decodeWord_of_op2 hop ▸ h; exact encodeA_of_op hop
  · cases decodeWord_of_op3 hop ▸ h; exact encodeRI_of_op hop
  · cases decodeWord_of_op4 hop ▸ h; exact encodeRI_of_op hop
  · rw [decodeWord_of_op5 hop] at h
    split at h
    case isTrue hn => cases h; exact encodeRRN_of_op_n hop hn
    case isFalse => cases h
  · cases decodeWord_of_op6 hop ▸ h; exact encodeRI_of_op hop
  · cases decodeWord_of_op7 hop ▸ h; exact encodeRI_of_op hop
  · exact encode_of_decodeGroup8 hop (decodeWord_of_op8 hop ▸ h)
  · rw [decodeWord_of_op9 hop] at h
    split at h
    case isTrue hn => cases h; exact encodeRRN_of_op_n hop hn
    case isFalse => cases h
  · cases decodeWord_of_opA hop ▸ h; exact encodeA_of_op hop
  · cases decodeWord_of_opB hop ▸ h; exact encodeA_of_op hop
  · cases decodeWord_of_opC hop ▸ h; exact encodeRI_of_op hop
  · cases decodeWord_of_opD hop ▸ h; exact encodeRRN_of_op_n hop rfl
  · exact encode_of_decodeGroupE hop (decodeWord_of_opE hop ▸ h)
  · exact encode_of_decodeGroupF hop (decodeWord_of_opF hop ▸ h)

/-- A word is decoded to an instruction exactly when it is that instruction's word. -/
theorem decodeWord_eq_ok_iff (w : Word) (i : Instr) : decodeWord w = .ok i ↔ w = encode i :=
  ⟨fun h => (encodeOfDecodeIsIdentity w i h).symm, fun h => h ▸ decodeWord_encode i⟩

/-! ### The illegal words -/

theorem decodeGroup0_eq_error_iff (w : Word) :
    decodeGroup0 w = .error (.unimplemented w) ↔ w ≠ 0x00E0 ∧ w ≠ 0x00EE := by
  unfold decodeGroup0
  split
  · simp_all
  · split <;> simp_all

theorem decodeGroup8_eq_error_iff (w : Word) : decodeGroup8 w = .error (.unimplemented w) ↔
    nField w ∈ [(0x8 : Nibble), 0x9, 0xA, 0xB, 0xC, 0xD, 0xF] := by
  rcases nibble_cases (nField w) with
    hn | hn | hn | hn | hn | hn | hn | hn | hn | hn | hn | hn | hn | hn | hn | hn <;>
  simp [decodeGroup8, hn]

theorem decodeGroupE_eq_error_iff (w : Word) :
    decodeGroupE w = .error (.unimplemented w) ↔ nnField w ∉ [(0x9E : Byte), 0xA1] := by
  unfold decodeGroupE
  split <;> simp_all

theorem decodeGroupF_eq_error_iff (w : Word) : decodeGroupF w = .error (.unimplemented w) ↔
    nnField w ∉ [(0x07 : Byte), 0x0A, 0x15, 0x18, 0x1E, 0x29, 0x33, 0x55, 0x65] := by
  unfold decodeGroupF
  split <;> simp_all

/-- Settles O5: the high nibble selects the group, and each group refuses exactly its own illegal words. -/
theorem illegalWordsByGroup : Obligations.IllegalWordsByGroup := by
  intro w
  rcases nibble_cases (opField w) with
    hop | hop | hop | hop | hop | hop | hop | hop | hop | hop | hop | hop | hop | hop | hop | hop
  · simp [decodeWord_of_op0 hop, decodeGroup0_eq_error_iff, hop]
  · simp [decodeWord_of_op1 hop, hop]
  · simp [decodeWord_of_op2 hop, hop]
  · simp [decodeWord_of_op3 hop, hop]
  · simp [decodeWord_of_op4 hop, hop]
  · simp [decodeWord_of_op5 hop, hop]
  · simp [decodeWord_of_op6 hop, hop]
  · simp [decodeWord_of_op7 hop, hop]
  · simp [decodeWord_of_op8 hop, decodeGroup8_eq_error_iff, hop]
  · simp [decodeWord_of_op9 hop, hop]
  · simp [decodeWord_of_opA hop, hop]
  · simp [decodeWord_of_opB hop, hop]
  · simp [decodeWord_of_opC hop, hop]
  · simp [decodeWord_of_opD hop, hop]
  · simp [decodeWord_of_opE hop, decodeGroupE_eq_error_iff, hop]
  · simp [decodeWord_of_opF hop, decodeGroupF_eq_error_iff, hop]

/-! ### The opcode table -/

/-- A refusal names the word: every arm of the decoder that refuses does (R88). -/
theorem error_of_decodeWord {w : Word} {e : DecodeError} (h : decodeWord w = .error e) : e = .unimplemented w := by
  unfold decodeWord decodeGroup0 decodeGroup8 decodeGroupE decodeGroupF at h
  repeat' split at h
  all_goals cases h
  all_goals rfl

/-- An instruction's row is in the table and covers its word: the family `TableRow`, over all instructions (R87). -/
theorem row_covers_encode (i : Instr) : i.row ∈ opcodeTable ∧ i.row.covers (encode i) = true := by
  cases i with
  | cls => exact Laws.TableRow.cls
  | ret => exact Laws.TableRow.ret
  | jp => exact Laws.TableRow.jp _
  | call => exact Laws.TableRow.call _
  | seImm => exact Laws.TableRow.seImm _ _
  | sneImm => exact Laws.TableRow.sneImm _ _
  | seReg => exact Laws.TableRow.seReg _ _
  | ldImm => exact Laws.TableRow.ldImm _ _
  | addImm => exact Laws.TableRow.addImm _ _
  | ldReg => exact Laws.TableRow.ldReg _ _
  | orReg => exact Laws.TableRow.orReg _ _
  | andReg => exact Laws.TableRow.andReg _ _
  | xorReg => exact Laws.TableRow.xorReg _ _
  | addReg => exact Laws.TableRow.addReg _ _
  | sub => exact Laws.TableRow.sub _ _
  | shr => exact Laws.TableRow.shr _ _
  | subn => exact Laws.TableRow.subn _ _
  | shl => exact Laws.TableRow.shl _ _
  | sneReg => exact Laws.TableRow.sneReg _ _
  | ldI => exact Laws.TableRow.ldI _
  | jpV0 => exact Laws.TableRow.jpV0 _
  | rnd => exact Laws.TableRow.rnd _ _
  | drw => exact Laws.TableRow.drw _ _ _
  | skp => exact Laws.TableRow.skp _
  | sknp => exact Laws.TableRow.sknp _
  | ldVxDt => exact Laws.TableRow.ldVxDt _
  | ldVxK => exact Laws.TableRow.ldVxK _
  | ldDtVx => exact Laws.TableRow.ldDtVx _
  | ldStVx => exact Laws.TableRow.ldStVx _
  | addI => exact Laws.TableRow.addI _
  | ldF => exact Laws.TableRow.ldF _
  | ldB => exact Laws.TableRow.ldB _
  | stRegs => exact Laws.TableRow.stRegs _
  | ldRegs => exact Laws.TableRow.ldRegs _

/-- Two rows of the table that cover one word are the same row: they agree with the word on every bit both fix. -/
theorem row_unique {w : Word} {r q : OpcodeRow} (hr : r ∈ opcodeTable) (hq : q ∈ opcodeTable) (hrw : r.covers w = true)
    (hqw : q.covers w = true) : r = q := by
  by_contra hne
  simp only [OpcodeRow.covers, beq_iff_eq] at hrw hqw
  have hsymm : Std.Symm fun r q : OpcodeRow => r.pattern &&& (r.mask &&& q.mask) ≠ q.pattern &&& (r.mask &&& q.mask) :=
    ⟨fun a b h => by rw [BitVec.and_comm b.mask]; exact h.symm⟩
  refine opcodeTable_disjoint.forall hr hq hne ?_
  rw [← hrw, ← hqw]
  ac_rfl

/-- Every row of the table fixes the high nibble. -/
theorem opField_of_covers {w : Word} {r : OpcodeRow} (hr : r ∈ opcodeTable) (h : r.covers w = true) :
    opField w = opField r.pattern := by
  have hmask : ∀ r ∈ opcodeTable, opField r.mask = 0xF := by decide
  rw [← ((covers_iff r w).mp h).1, hmask r hr, nibble_and_ones]

theorem nField_of_covers {w : Word} {r : OpcodeRow} (hmask : nField r.mask = 0xF) (h : r.covers w = true) :
    nField w = nField r.pattern := by
  obtain ⟨-, -, -, hn⟩ := (covers_iff r w).mp h
  rw [← hn, hmask, nibble_and_ones]

theorem nnField_of_covers {w : Word} {r : OpcodeRow} (hmask : yField r.mask = 0xF ∧ nField r.mask = 0xF)
    (h : r.covers w = true) : nnField w = nnField r.pattern := by
  obtain ⟨-, -, hy, hn⟩ := (covers_iff r w).mp h
  rw [nnField_eq_iff, ← hy, ← hn, hmask.1, hmask.2, nibble_and_ones, nibble_and_ones]
  exact ⟨rfl, rfl⟩

/-- What the rows of the groups that have illegal words fix, and the legal values they fix it to (R87). -/
theorem opcodeTable_groups : ∀ r ∈ opcodeTable,
    (opField r.pattern = 0x0 → r.mask = 0xFFFF ∧ r.pattern ∈ [(0x00E0 : Word), 0x00EE]) ∧
    (opField r.pattern = 0x5 ∨ opField r.pattern = 0x9 → nField r.mask = 0xF ∧ nField r.pattern = 0) ∧
    (opField r.pattern = 0x8 → nField r.mask = 0xF ∧ nField r.pattern ∉ [(0x8 : Nibble), 0x9, 0xA, 0xB, 0xC, 0xD, 0xF]) ∧
    (opField r.pattern = 0xE → (yField r.mask = 0xF ∧ nField r.mask = 0xF) ∧
      nnField r.pattern ∈ [(0x9E : Byte), 0xA1]) ∧
    (opField r.pattern = 0xF → (yField r.mask = 0xF ∧ nField r.mask = 0xF) ∧
      nnField r.pattern ∈ [(0x07 : Byte), 0x0A, 0x15, 0x18, 0x1E, 0x29, 0x33, 0x55, 0x65]) := by
  decide

/-- A word that some row of the table covers is in none of the groups of illegal words (R88). -/
theorem decodeWord_ne_error_of_covers {w : Word} {r : OpcodeRow} (hr : r ∈ opcodeTable) (h : r.covers w = true) :
    decodeWord w ≠ .error (.unimplemented w) := by
  rw [ne_eq, illegalWordsByGroup w, opField_of_covers hr h]
  obtain ⟨h0, h59, h8, hE, hF⟩ := opcodeTable_groups r hr
  rintro (⟨hop, hcls, hret⟩ | ⟨hop, hn⟩ | ⟨hop, hn⟩ | ⟨hop, hn⟩ | ⟨hop, hnn⟩ | ⟨hop, hnn⟩)
  · obtain ⟨hmask, hpat⟩ := h0 hop
    have hw : w = r.pattern := (covers_fixed w r.pattern).mp (hmask ▸ h)
    exact (List.mem_pair.mp (hw ▸ hpat)).elim hcls hret
  · exact hn ((nField_of_covers (h59 (.inl hop)).1 h).trans (h59 (.inl hop)).2)
  · exact (h8 hop).2 (nField_of_covers (h8 hop).1 h ▸ hn)
  · exact hn ((nField_of_covers (h59 (.inr hop)).1 h).trans (h59 (.inr hop)).2)
  · exact hnn (nnField_of_covers (hE hop).1 h ▸ (hE hop).2)
  · exact hnn (nnField_of_covers (hF hop).1 h ▸ (hF hop).2)

/-- Settles O4: a word that decodes is its instruction's word, which the instruction's row covers; the rows are disjoint; and
an illegal word is covered by none. -/
theorem decodableWordsAreTheTable : Obligations.DecodableWordsAreTheTable := by
  refine fun w => ⟨fun i hi => ?ok, fun e he => ?error⟩
  case ok =>
    obtain rfl := (decodeWord_eq_ok_iff w i).mp hi
    obtain ⟨hmem, hcov⟩ := row_covers_encode i
    exact ⟨hmem, hcov, fun r hr hrw => row_unique hr hmem hrw hcov⟩
  case error =>
    obtain rfl := error_of_decodeWord he
    exact ⟨rfl, fun r hr => Bool.eq_false_iff.mpr fun hrw => decodeWord_ne_error_of_covers hr hrw he⟩

/-- Settles O1: the decoder run on the eight byte lists. -/
theorem writtenWordsDecode : Obligations.WrittenWordsDecode := by
  unfold Obligations.WrittenWordsDecode
  decide

end Sys2Proof

/-! PROOFS. The frame of each named update of the state (R40), and once for all 34 instructions what executing one can leave:
one of a few kinds of update, or STATUS alone (R200, R205). The access table and the precision of stops follow. -/

namespace Sys2Proof.Machine

/-! ### Frames compose -/

theorem Part.same_trans {p : Part} {s t u : State} (hst : p.same s t) (htu : p.same t u) : p.same s u := by
  cases p with
  | registers | memory => exact fun k => (htu k).trans (hst k)
  | index | delayTimer | soundTimer | status => exact Eq.trans htu hst
  | stack => exact ⟨htu.1.trans hst.1, fun k => (htu.2 k).trans (hst.2 k)⟩
  | screen | randomInput => exact ⟨htu.1.trans hst.1, htu.2.trans hst.2⟩
  | host => simp_all [Part.same]

theorem KeepsAllBut.trans {ps : List Part} {s t u : State} (hst : KeepsAllBut ps s t) (htu : KeepsAllBut ps t u) :
    KeepsAllBut ps s u :=
  fun p hp => Part.same_trans (hst p hp) (htu p hp)

theorem KeepsAllBut.mono {ps qs : List Part} {s t : State} (hst : KeepsAllBut ps s t) (hsub : ps ⊆ qs) :
    KeepsAllBut qs s t :=
  fun p hp => hst p fun hmem => hp (hsub hmem)

theorem keepsAllBut_refl (ps : List Part) (s : State) : KeepsAllBut ps s s := by
  intro p _
  cases p <;> simp [Part.same]

/-- An update that writes the part `q` alone. -/
theorem keepsAllBut_singleton {q : Part} {s t : State} (h : ∀ p, p ≠ q → p.same s t) : KeepsAllBut [q] s t :=
  fun p hp => h p fun hq => hp (List.mem_singleton.mpr hq)

/-! ### The frame of each update -/

theorem keepsAllBut_setPc (s : State) (w : Word) : KeepsAllBut [] s (s.setPc w) := by
  intro p _
  cases p <;> simp [Part.same]

/-- Setting PC adds nothing to the parts an update has changed. -/
theorem KeepsAllBut.setPc {ps : List Part} {s t : State} (h : KeepsAllBut ps s t) (w : Word) :
    KeepsAllBut ps s (t.setPc w) :=
  h.trans ((keepsAllBut_setPc t w).mono (List.nil_subset ps))

theorem KeepsAllBut.advance {ps : List Part} {s t : State} (h : KeepsAllBut ps s t) : KeepsAllBut ps s t.advance :=
  h.setPc _

theorem keepsAllBut_setV (s : State) (x : Reg) (b : Byte) : KeepsAllBut [.registers] s (s.setV x b) :=
  keepsAllBut_singleton fun p hp => by cases p <;> simp_all [Part.same]

theorem keepsAllBut_loadBlock (s : State) (base : Nat) (x : Reg) : KeepsAllBut [.registers] s (s.loadBlock base x) :=
  keepsAllBut_singleton fun p hp => by cases p <;> simp_all [Part.same]

theorem keepsAllBut_afterDraw (s : State) : KeepsAllBut [.randomInput] s s.afterDraw :=
  keepsAllBut_singleton fun p hp => by cases p <;> simp_all [Part.same]

theorem keepsAllBut_setScreen (s : State) (fb : Framebuffer) : KeepsAllBut [.screen] s (s.setScreen fb) :=
  keepsAllBut_singleton fun p hp => by cases p <;> simp_all [Part.same]

theorem keepsAllBut_setDt (s : State) (b : Byte) : KeepsAllBut [.delayTimer] s (s.setDt b) :=
  keepsAllBut_singleton fun p hp => by cases p <;> simp_all [Part.same]

theorem keepsAllBut_setSt (s : State) (b : Byte) : KeepsAllBut [.soundTimer] s (s.setSt b) :=
  keepsAllBut_singleton fun p hp => by cases p <;> simp_all [Part.same]

theorem keepsAllBut_setStatus (s : State) (x : Status) : KeepsAllBut [.status] s (s.setStatus x) :=
  keepsAllBut_singleton fun p hp => by cases p <;> simp_all [Part.same]

theorem keepsAllBut_writeBytes (s : State) (a : Nat) (bs : List Byte) :
    KeepsAllBut [.memory] s (s.setMem (s.mem.writeBytes a bs)) :=
  keepsAllBut_singleton fun p hp => by cases p <;> simp_all [Part.same]

theorem keepsAllBut_withStack (s : State) (stack : Vector Word 16) (sp : Fin 17) :
    KeepsAllBut [.stack] s { s with stack := stack, sp := sp } :=
  keepsAllBut_singleton fun p hp => by cases p <;> simp_all [Part.same, State.getV]

/-- The frame of the flag instructions of group 8: `V[X]`, then VF, then PC (R23, R136 to R140). -/
theorem setV_setVF_advance_frame (s : State) (x : Reg) (b : Byte) (f : Bool) :
    KeepsRegistersBut [x, 15] s ((s.setV x b).setVF f).advance ∧ ((s.setV x b).setVF f).advance.pc = s.pc + 2 ∧
      KeepsAllBut [.registers] s ((s.setV x b).setVF f).advance := by
  refine ⟨fun r hr => ?_, rfl, ((keepsAllBut_setV s x b).trans (keepsAllBut_setV _ _ _)).advance⟩
  simp only [List.mem_cons, List.not_mem_nil, or_false, not_or] at hr
  simp [State.getV_setV, hr.1, hr.2]

/-- The frame of DXYN when it does not fault: the screen, then VF, then PC (R172). -/
theorem setScreen_setVF_advance_frame (s : State) (fb : Framebuffer) (f : Bool) :
    KeepsRegistersBut [15] s ((s.setScreen fb).setVF f).advance ∧ ((s.setScreen fb).setVF f).advance.pc = s.pc + 2 ∧
      KeepsAllBut [.registers, .screen] s ((s.setScreen fb).setVF f).advance := by
  refine ⟨fun r hr => ?_, rfl, KeepsAllBut.advance (t := (s.setScreen fb).setVF f) ?_⟩
  · simp [State.getV_setV, List.mem_singleton.not.mp hr]
  · exact ((keepsAllBut_setScreen s fb).mono (by simp)).trans ((keepsAllBut_setV _ _ _).mono (by simp))

/-! ### The instructions that test something first, one equation for each way through -/

theorem exec_ret_of_pos (s : State) (h : 0 < s.sp.val) : exec .ret s =
    .next ({ s with sp := ⟨s.sp.val - 1, by omega⟩ }.setPc s.stack[s.sp.val - 1]) := by
  simp only [exec, execRet, State.pop_of_pos s h]

theorem exec_ret_of_empty (s : State) (h : s.sp.val = 0) :
    exec .ret s = .next (s.raise .stackUnderflow (some (encode .ret))) := by
  simp only [exec, execRet, State.pop_of_empty s h]

theorem exec_jp_self {nnn : Addr} {s : State} (h : zext16 nnn = s.pc) :
    exec (.jp nnn) s = .next (s.halt (encode (.jp nnn))) := if_pos h

theorem exec_jp_other {nnn : Addr} {s : State} (h : zext16 nnn ≠ s.pc) :
    exec (.jp nnn) s = .next (s.setPc (zext16 nnn)) := if_neg h

theorem exec_call_of_lt (nnn : Addr) (s : State) (h : s.sp.val < 16) : exec (.call nnn) s =
    .next ({ s with stack := s.stack.set s.sp.val (s.pc + 2), sp := ⟨s.sp.val + 1, by omega⟩ }.setPc (zext16 nnn)) := by
  simp only [exec, execCall, State.push_of_lt s _ h]

theorem exec_call_of_full (nnn : Addr) (s : State) (h : s.sp.val = 16) :
    exec (.call nnn) s = .next (s.raise .stackOverflow (some (encode (.call nnn)))) := by
  simp only [exec, execCall, State.push_of_full s _ h]

theorem exec_ldVxK_none (x : Reg) {s : State} (h : lowestKey s.kp = none) : exec (.ldVxK x) s = .next s := by
  simp only [exec, execLdVxK, h]

theorem exec_ldVxK_some (x : Reg) {s : State} {k : Nat} (h : lowestKey s.kp = some k) :
    exec (.ldVxK x) s = .next (s.setV x (BitVec.ofNat 8 k)).advance := by
  simp only [exec, execLdVxK, h]

theorem exec_drw_of_inRange (x y : Reg) {n : Nibble} {s : State} (h : s.outOfRange n.toNat = false) :
    exec (.drw x y n) s = .next ((s.setScreen (s.drawSprite (s.getV x) (s.getV y) n.toNat).fb).setVF
      (s.drawSprite (s.getV x) (s.getV y) n.toNat).coll).advance := if_neg (Bool.eq_false_iff.mp h)

theorem exec_drw_of_outOfRange (x y : Reg) {n : Nibble} {s : State} (h : s.outOfRange n.toNat = true) :
    exec (.drw x y n) s = .next (s.raise .memoryOutOfRange (some (encode (.drw x y n)))) := if_pos h

theorem exec_ldB_of_inRange (x : Reg) {s : State} (h : s.outOfRange 3 = false) : exec (.ldB x) s =
    .next (s.setMem (s.mem.writeBytes s.i.toNat (decimalDigits (s.getV x)))).advance := if_neg (Bool.eq_false_iff.mp h)

theorem exec_ldB_of_outOfRange (x : Reg) {s : State} (h : s.outOfRange 3 = true) :
    exec (.ldB x) s = .next (s.raise .memoryOutOfRange (some (encode (.ldB x)))) := if_pos h

theorem exec_stRegs_of_inRange {x : Reg} {s : State} (h : s.outOfRange (x.val + 1) = false) : exec (.stRegs x) s =
    .next (s.setMem (s.mem.writeBytes s.i.toNat (s.registerBlock x))).advance := if_neg (Bool.eq_false_iff.mp h)

theorem exec_stRegs_of_outOfRange {x : Reg} {s : State} (h : s.outOfRange (x.val + 1) = true) :
    exec (.stRegs x) s = .next (s.raise .memoryOutOfRange (some (encode (.stRegs x)))) := if_pos h

theorem exec_ldRegs_of_inRange {x : Reg} {s : State} (h : s.outOfRange (x.val + 1) = false) :
    exec (.ldRegs x) s = .next (s.loadBlock s.i.toNat x).advance := if_neg (Bool.eq_false_iff.mp h)

theorem exec_ldRegs_of_outOfRange {x : Reg} {s : State} (h : s.outOfRange (x.val + 1) = true) :
    exec (.ldRegs x) s = .next (s.raise .memoryOutOfRange (some (encode (.ldRegs x)))) := if_pos h

/-! ### What an instruction can leave -/

/-- The kinds of update that executing `i` in `s` comes to, with what `i` has to be for each (R200, R204, R205). -/
inductive Effect (i : Instr) (s : State) : State → Prop
  | halt (nnn : Addr) (hi : i = .jp nnn) (hpc : zext16 nnn = s.pc) : Effect i s (s.halt (encode i))
  | fault (kind : ExecutionFault) (hkind : kind ≠ .misalignedProgramCounter) (hi : .status ∈ writtenParts i) :
      Effect i s (s.raise kind (some (encode i)))
  | wait : Effect i s s
  | jump (w : Word) (hw : w.toNat ≤ 0x10FE) : Effect i s (s.setPc w)
  | skip (c : Bool) : Effect i s (s.skipIf c)
  | ret (hi : i = .ret) (sp : Fin 17) (k : Fin 16) : Effect i s ({ s with sp := sp }.setPc s.stack[k])
  | call (nnn : Addr) (hi : i = .call nnn) (sp : Fin 17) (k : Fin 16) :
      Effect i s ({ s with stack := s.stack.set k.val (s.pc + 2), sp := sp }.setPc (zext16 nnn))
  | register (x : Reg) (b : Byte) (hx : writesRegister i x = true) : Effect i s (s.setV x b).advance
  | random (x : Reg) (nn b : Byte) (hi : i = .rnd x nn) : Effect i s (s.afterDraw.setV x b).advance
  | flag (x : Reg) (b : Byte) (f : Bool) (hx : writesRegister i x = true) (hf : writesRegister i 15 = true) :
      Effect i s ((s.setV x b).setVF f).advance
  | clear (hi : i = .cls) (fb : Framebuffer) : Effect i s (s.setScreen fb).advance
  | draw (x y : Reg) (n : Nibble) (hi : i = .drw x y n) (fb : Framebuffer) (f : Bool) :
      Effect i s ((s.setScreen fb).setVF f).advance
  | index (w : Word) (hi : .index ∈ writtenParts i) : Effect i s (s.setI w).advance
  | store (a : Nat) (bs : List Byte) (hi : .memory ∈ writtenParts i) :
      Effect i s (s.setMem (s.mem.writeBytes a bs)).advance
  | load (x : Reg) (hi : i = .ldRegs x) (base : Nat) : Effect i s (s.loadBlock base x).advance
  | delay (x : Reg) (hi : i = .ldDtVx x) : Effect i s (s.setDt (s.getV x)).advance
  | sound (x : Reg) (hi : i = .ldStVx x) : Effect i s (s.setSt (s.getV x)).advance

/-- A 12-bit address is below 4096, also as a word. -/
theorem toNat_zext16_addr_lt (nnn : Addr) : (zext16 nnn).toNat < 4096 := by
  rw [toNat_zext16 (by decide)]
  exact nnn.isLt

/-- The sum of BNNN is exact: it is at most `0xFF + 0xFFF` (R26, R113). -/
theorem toNat_jumpPlusV0 (b : Byte) (nnn : Addr) : (zext16 b + zext16 nnn).toNat = b.toNat + nnn.toNat := by
  rw [BitVec.toNat_add, toNat_zext16 (by decide), toNat_zext16 (by decide)]
  exact Nat.mod_eq_of_lt (by omega)

/-- Every instruction answers a next state, and that state is one of the kinds named. -/
theorem exec_effect (i : Instr) (s : State) : ∃ t, exec i s = .next t ∧ Effect i s t := by
  cases i with
  | cls => exact ⟨_, rfl, .clear rfl _⟩
  | ret =>
    by_cases h : 0 < s.sp.val
    · exact ⟨_, exec_ret_of_pos s h, .ret rfl _ ⟨s.sp.val - 1, by omega⟩⟩
    · exact ⟨_, exec_ret_of_empty s (by omega), .fault _ (by decide) (by simp [writtenParts])⟩
  | jp nnn =>
    by_cases h : zext16 nnn = s.pc
    · exact ⟨_, exec_jp_self h, .halt nnn rfl h⟩
    · exact ⟨_, exec_jp_other h, .jump _ (by have := toNat_zext16_addr_lt nnn; omega)⟩
  | call nnn =>
    by_cases h : s.sp.val < 16
    · exact ⟨_, exec_call_of_lt nnn s h, .call nnn rfl _ ⟨s.sp.val, h⟩⟩
    · exact ⟨_, exec_call_of_full nnn s (by omega), .fault _ (by decide) (by simp [writtenParts])⟩
  | seImm | sneImm | seReg | sneReg | skp | sknp => exact ⟨_, rfl, .skip _⟩
  | jpV0 nnn => exact ⟨_, rfl, .jump _ (by rw [toNat_jumpPlusV0]; omega)⟩
  | ldImm x | addImm x | ldReg x | orReg x | andReg x | xorReg x | ldVxDt x =>
    exact ⟨_, rfl, .register x _ (by simp [writesRegister])⟩
  | addReg x | sub x | shr x | subn x | shl x =>
    exact ⟨_, rfl, .flag x _ _ (by simp [writesRegister]) (by simp [writesRegister])⟩
  | rnd x nn => exact ⟨_, rfl, .random x nn _ rfl⟩
  | ldI | addI | ldF => exact ⟨_, rfl, .index _ (by simp [writtenParts])⟩
  | drw x y n =>
    cases h : s.outOfRange n.toNat with
    | false => exact ⟨_, exec_drw_of_inRange x y h, .draw x y n rfl _ _⟩
    | true => exact ⟨_, exec_drw_of_outOfRange x y h, .fault _ (by decide) (by simp [writtenParts])⟩
  | ldVxK x =>
    cases h : lowestKey s.kp with
    | none => exact ⟨_, exec_ldVxK_none x h, .wait⟩
    | some k => exact ⟨_, exec_ldVxK_some x h, .register x _ (by simp [writesRegister])⟩
  | ldDtVx x => exact ⟨_, rfl, .delay x rfl⟩
  | ldStVx x => exact ⟨_, rfl, .sound x rfl⟩
  | ldB x =>
    cases h : s.outOfRange 3 with
    | false => exact ⟨_, exec_ldB_of_inRange x h, .store _ _ (by simp [writtenParts])⟩
    | true => exact ⟨_, exec_ldB_of_outOfRange x h, .fault _ (by decide) (by simp [writtenParts])⟩
  | stRegs x =>
    cases h : s.outOfRange (x.val + 1) with
    | false => exact ⟨_, exec_stRegs_of_inRange h, .store _ _ (by simp [writtenParts])⟩
    | true => exact ⟨_, exec_stRegs_of_outOfRange h, .fault _ (by decide) (by simp [writtenParts])⟩
  | ldRegs x =>
    cases h : s.outOfRange (x.val + 1) with
    | false => exact ⟨_, exec_ldRegs_of_inRange h, .load x rfl _⟩
    | true => exact ⟨_, exec_ldRegs_of_outOfRange h, .fault _ (by decide) (by simp [writtenParts])⟩

/-- Settles O37: no instruction is refused, and a fault it takes is a next state. -/
theorem execAlwaysAnswersNext : Obligations.ExecAlwaysAnswersNext :=
  fun i s => (exec_effect i s).imp fun _ h => h.1

theorem effect_of_exec {i : Instr} {s t : State} (h : exec i s = .next t) : Effect i s t := by
  obtain ⟨u, hu, heff⟩ := exec_effect i s
  obtain rfl : u = t := by simpa [hu] using h
  exact heff

/-! ### The access table -/

theorem registers_mem_writtenParts {i : Instr} {r : Reg} (h : writesRegister i r = true) :
    Part.registers ∈ writtenParts i := by
  cases i <;> simp_all [writesRegister, writtenParts]

theorem Effect.keepsAllBut {i : Instr} {s t : State} (h : Effect i s t) : KeepsAllBut (writtenParts i) s t := by
  cases h with
  | halt _ hi => exact (keepsAllBut_setStatus s _).mono (by simp [hi, writtenParts])
  | fault _ _ hi => exact (keepsAllBut_setStatus s _).mono (by simpa using hi)
  | wait => exact keepsAllBut_refl _ s
  | jump | skip => exact (keepsAllBut_setPc s _).mono (List.nil_subset _)
  | ret hi | call _ hi => exact ((keepsAllBut_withStack s _ _).setPc _).mono (by simp [hi, writtenParts])
  | register _ _ hx => exact (keepsAllBut_setV s _ _).advance.mono (by simpa using registers_mem_writtenParts hx)
  | random _ _ _ hi =>
    exact (((keepsAllBut_afterDraw s).mono (by simp [hi, writtenParts])).trans
      ((keepsAllBut_setV _ _ _).mono (by simp [hi, writtenParts]))).advance
  | flag _ _ _ hx =>
    exact (setV_setVF_advance_frame s _ _ _).2.2.mono (by simpa using registers_mem_writtenParts hx)
  | clear hi => exact (keepsAllBut_setScreen s _).advance.mono (by simp [hi, writtenParts])
  | draw _ _ _ hi => exact (setScreen_setVF_advance_frame s _ _).2.2.mono (by simp [hi, writtenParts])
  | index _ hi => exact (keepsAllBut_index_setI_advance s _).mono (by simpa using hi)
  | store _ _ hi => exact (keepsAllBut_writeBytes s _ _).advance.mono (by simpa using hi)
  | load _ hi => exact (keepsAllBut_loadBlock s _ _).advance.mono (by simp [hi, writtenParts])
  | delay _ hi => exact (keepsAllBut_setDt s _).advance.mono (by simp [hi, writtenParts])
  | sound _ hi => exact (keepsAllBut_setSt s _).advance.mono (by simp [hi, writtenParts])

theorem Effect.getV_of_not_written {i : Instr} {s t : State} (h : Effect i s t) {r : Reg}
    (hr : writesRegister i r = false) : t.getV r = s.getV r := by
  have hne : ∀ x : Reg, writesRegister i x = true → r ≠ x := fun x hx he => by simp [← he, hr] at hx
  cases h with
  | register x _ hx => simp [State.getV_setV, hne x hx]
  | random x _ _ hi => simp [State.getV_setV, hne x (by simp [hi, writesRegister])]
  | flag x _ _ hx hf => simp [State.getV_setV, hne x hx, hne 15 hf]
  | draw _ _ _ hi => simp [State.getV_setV, hne 15 (by simp [hi, writesRegister])]
  | load _ hi =>
    subst hi
    simp only [State.advance_eq, State.setPc_getV, State.getV_loadBlock]
    exact if_neg (of_decide_eq_false hr)
  | ret | call => rfl
  | _ => simp

/-- Settles O38: each kind of update writes no register and no part beside those its instruction may write. -/
theorem accessMatrix : Obligations.AccessMatrix :=
  fun _ _ _ h => ⟨fun _ => (effect_of_exec h).getV_of_not_written, (effect_of_exec h).keepsAllBut⟩

/-! ### Stops -/

/-- STATUS after an instruction: as before, or a stop that has written nothing else, with the word and PC recorded. -/
theorem Effect.status {i : Instr} {s t : State} (h : Effect i s t) : t.status = s.status ∨
    (∃ nnn, i = .jp nnn ∧ zext16 nnn = s.pc ∧ t = s.setStatus (.halted (encode i) s.pc)) ∨
    (∃ kind, kind ≠ .misalignedProgramCounter ∧ t = s.setStatus (.faulted kind (some (encode i)) s.pc)) := by
  cases h with
  | halt nnn hi hpc => exact .inr (.inl ⟨nnn, hi, hpc, rfl⟩)
  | fault kind hkind => exact .inr (.inr ⟨kind, hkind, rfl⟩)
  | _ => exact .inl rfl

/-- Settles O40: a STATUS that is no longer RUNNING is one an instruction's halt or fault has written, alone. -/
theorem stopsArePrecise : Obligations.StopsArePrecise := by
  intro i s t hs he ht
  rcases (effect_of_exec he).status with h | ⟨nnn, -, -, rfl⟩ | ⟨kind, -, rfl⟩
  · exact absurd (h.trans hs) ht
  · exact ⟨rfl, .inl rfl⟩
  · exact ⟨rfl, .inr ⟨kind, rfl⟩⟩

end Sys2Proof.Machine

/-! PROOFS. The step and the scheduler (60_exceptions.md): what a cycle and the ends of a tick leave, and the invariant of
reachable states, clause by clause (R41, R200, R220 to R230). -/

namespace Sys2Proof.Machine

/-! ### The cycle as a stop or an instruction's effect -/

theorem exists_cycle (s : State) : ∃ t r, cycle s = .next (t, r) := by
  by_cases hs : s.status = .running
  · cases hl : legalPc s.pc with
    | false => exact ⟨_, _, cycle_of_illegal_pc s hs hl⟩
    | true =>
      cases hd : decodeWord s.fetchWord with
      | error e => exact ⟨_, _, cycle_of_error s e hs hl hd⟩
      | ok i =>
        obtain ⟨t, he, -⟩ := exec_effect i s
        exact ⟨_, _, cycle_of_ok s t i hs hl hd he⟩
  · exact ⟨_, _, cycle_of_stopped s hs⟩

/-- A cycle writes STATUS alone, or has the effect of the instruction whose word is at PC. -/
theorem cycle_stop_or_effect {s t : State} {r : CycleResult} (h : cycle s = .next (t, r)) :
    (∃ x, t = s.setStatus x) ∨
      (legalPc s.pc = true ∧ ∃ i, decodeWord s.fetchWord = .ok i ∧ Effect i s t) := by
  rcases cycle_cases s t r h with ⟨-, rfl, -⟩ | ⟨-, -, rfl, -⟩ | ⟨-, -, -, rfl, -⟩ | ⟨-, hl, i, hd, he, -⟩
  · exact .inl ⟨t.status, rfl⟩
  · exact .inl ⟨_, rfl⟩
  · exact .inl ⟨_, rfl⟩
  · exact .inr ⟨hl, i, hd, effect_of_exec he⟩

theorem host_notMem_writtenParts (i : Instr) : Part.host ∉ writtenParts i := by
  cases i <;> simp [writtenParts]

/-- No cycle writes the keypad latch, LOADED, the Scheduler's place, the parameters or the display's output. -/
theorem cycle_keeps_host {s t : State} {r : CycleResult} (h : cycle s = .next (t, r)) : Part.host.same s t := by
  rcases cycle_stop_or_effect h with ⟨x, rfl⟩ | ⟨-, i, -, heff⟩
  · exact keepsAllBut_setStatus s x .host (by decide)
  · exact heff.keepsAllBut .host (host_notMem_writtenParts i)

theorem cycle_opcodesPerFrame {s t : State} {r : CycleResult} (h : cycle s = .next (t, r)) :
    t.opcodesPerFrame = s.opcodesPerFrame := by
  obtain ⟨-, -, -, -, hopf, -⟩ := cycle_keeps_host h
  exact hopf

theorem cycle_loaded {s t : State} {r : CycleResult} (h : cycle s = .next (t, r)) : t.loaded = s.loaded := by
  obtain ⟨-, hloaded, -⟩ := cycle_keeps_host h
  exact hloaded

/-- A cycle that leaves STATUS terminal answers it. -/
theorem cycle_terminal {s t : State} {r : CycleResult} (h : cycle s = .next (t, r)) (ht : t.status ≠ .running) :
    r = .terminal := by
  rcases cycle_cases s t r h with ⟨-, -, hr⟩ | ⟨-, -, -, hr⟩ | ⟨-, -, -, -, hr⟩ | ⟨-, -, i, -, -, hr⟩
  · exact hr
  · exact hr
  · exact hr
  · rw [hr, cycleResult]
    split
    · contradiction
    · rfl
    · rfl

/-! ### The step in the execute phase -/

theorem step_of_cycle {n : Nat} {s t : State} {r : CycleResult} (hp : s.phase = .execute n) (h : cycle s = .next (t, r)) :
    step s = .next { t with phase := phaseAfter n t.opcodesPerFrame r } := by
  rw [step_of_execute s n hp, runCycle_of_next n s t r h]

theorem step_of_decoded {n : Nat} {s t : State} {i : Instr} (hp : s.phase = .execute n) (hs : s.status = .running)
    (hl : legalPc s.pc = true) (hd : decodeWord s.fetchWord = .ok i) (he : exec i s = .next t) :
    step s = .next { t with phase := phaseAfter n t.opcodesPerFrame (cycleResult i s t) } :=
  step_of_cycle hp (cycle_of_ok s t i hs hl hd he)

/-- Whatever instruction the word at PC is, the step executes it. -/
theorem step_executes {n : Nat} {s : State} {i : Instr} (hp : s.phase = .execute n) (hs : s.status = .running)
    (hl : legalPc s.pc = true) (hd : decodeWord s.fetchWord = .ok i) :
    ∃ t p, exec i s = .next t ∧ step s = .next { t with phase := p } := by
  obtain ⟨t, he, -⟩ := exec_effect i s
  exact ⟨t, _, he, step_of_decoded hp hs hl hd he⟩

/-- Every step in the execute phase is a cycle and then the Scheduler's place. -/
theorem cycle_of_step {n : Nat} {s t : State} (hp : s.phase = .execute n) (h : step s = .next t) :
    ∃ u r, cycle s = .next (u, r) ∧ t = { u with phase := phaseAfter n u.opcodesPerFrame r } := by
  obtain ⟨u, r, hc⟩ := exists_cycle s
  rw [step_of_cycle hp hc] at h
  exact ⟨u, r, hc, (Host.Outcome.next.inj h).symm⟩

theorem phaseAfter_eq (n opf : Nat) (r : CycleResult) :
    phaseAfter n opf r = if r = .proceed ∧ n + 1 < opf then .execute (n + 1) else .finish := by
  cases r <;> simp [phaseAfter]

theorem decodeBytes_pair_eq_ok_iff (hi lo : Byte) (i : Instr) :
    decodeBytes [hi, lo] = .ok (i, []) ↔ decodeWord (wordOfBytes hi lo) = .ok i := by
  rw [decodeBytes]
  cases decodeWord (wordOfBytes hi lo) <;> simp [Except.map]

/-- Settles O43: the step is the cycle's `exec`, and the cycle answers CONTINUE exactly in the first case. -/
theorem stepRunsDecodedInstruction : Obligations.StepRunsDecodedInstruction := by
  intro n s i hp hs hl hd
  have hdec : decodeWord s.fetchWord = .ok i := (decodeBytes_pair_eq_ok_iff _ _ i).mp hd
  obtain ⟨t, he, -⟩ := exec_effect i s
  have hopf := cycle_opcodesPerFrame (cycle_of_ok s t i hs hl hdec he)
  refine ⟨t, _, he, step_of_decoded hp hs hl hdec he, ?_⟩
  simp only [phaseAfter_eq, hopf, cycleResult_eq_proceed_iff, and_assoc]
  exact ⟨fun h => if_pos h, fun h => if_neg h⟩

theorem legalPc_eq_false_iff (pc : Word) :
    legalPc pc = false ↔ pc.toNat % 2 = 1 ∨ pc.toNat < 0x200 ∨ pc.toNat ≥ 4096 := by
  rw [← Bool.not_eq_true, legalPc_iff]
  omega

/-- Settles O44: the PC test comes first and its fault ends the execute phase. -/
theorem stepFaultsOnIllegalPc : Obligations.StepFaultsOnIllegalPc := fun _ s hp hs hpc =>
  step_of_cycle hp (cycle_of_illegal_pc s hs ((legalPc_eq_false_iff s.pc).mpr hpc))

/-- Settles O45: a word that encodes no instruction is refused by the decoder. -/
theorem stepFaultsOnIllegalWord : Obligations.StepFaultsOnIllegalWord := by
  intro n s hp hs hl hword
  cases hd : decodeWord s.fetchWord with
  | error e => exact step_of_cycle hp (cycle_of_error s e hs hl hd)
  | ok i => exact absurd (encodeOfDecodeIsIdentity _ i hd) (hword i)

/-! ### The word the host places -/

theorem legalPc_fetchableAt (pc : Word) : legalPc (fetchableAt pc) = true := by
  unfold fetchableAt
  split
  · assumption
  · decide

/-- A legal fetch address is even, so the whole word lies in memory. -/
theorem word_in_memory_of_legalPc {pc : Word} (h : legalPc pc = true) : pc.toNat + 2 ≤ 4096 := by
  have := (legalPc_iff pc).mp h
  omega

theorem tableWord_toNat (w : Word) : tableWord 16 w.toNat = w := by
  rw [tableWord, Nat.mod_eq_of_lt w.isLt, BitVec.ofNat_toNat, BitVec.setWidth_eq]

theorem fetchWord_placeWord (s : State) (w : Word) : (s.placeWord w).fetchWord = w :=
  Memory.readWord_writeWord s.mem _ w (word_in_memory_of_legalPc (legalPc_fetchableAt s.pc))

/-- Settles O46: the word placed is the one fetched, and it decodes to the instruction it encodes. -/
theorem placedWordIsRunNext : Obligations.PlacedWordIsRunNext := by
  intro s i
  rw [State.withFetchWord, tableWord_toNat]
  refine step_executes rfl rfl (legalPc_fetchableAt s.pc) ?_
  rw [fetchWord_placeWord, decodeWord_encode]

/-! ### The ends of a tick -/

theorem endTick_eq (s : State) : endTick s =
    { s with
      dirty := false, presents := if s.dirty = true then s.fb :: s.presents else s.presents,
      dt := countDown s.dt, st := countDown s.st, phase := .between } := by
  cases h : s.dirty <;> simp [endTick, State.present, State.timersTick, h]

theorem step_of_start {s : State} (hp : s.phase = .between) (hs : s.status = .running) : step s = .next (beginTick s) := by
  rw [step_of_between s hp, startTick_of_running s hs]

theorem step_of_over {s : State} (hp : s.phase = .between) (hs : s.status ≠ .running) : ∃ f, step s = .fault f := by
  rw [step_of_between s hp]
  exact startTick_of_stopped s hs

/-- Everything a step that answers can do: begin a tick, one cycle, or end a tick. -/
theorem step_cases {s t : State} (h : step s = .next t) :
    (s.phase = .between ∧ s.status = .running ∧ t = beginTick s) ∨
    (∃ n u r, s.phase = .execute n ∧ cycle s = .next (u, r) ∧ t = { u with phase := phaseAfter n u.opcodesPerFrame r }) ∨
    (s.phase = .finish ∧ t = endTick s) := by
  cases hp : s.phase with
  | between =>
    by_cases hs : s.status = .running
    · rw [step_of_start hp hs] at h
      exact .inl ⟨rfl, hs, (Host.Outcome.next.inj h).symm⟩
    · obtain ⟨f, hf⟩ := step_of_over hp hs
      rw [hf] at h
      cases h
  | execute n =>
    obtain ⟨u, r, hc, ht⟩ := cycle_of_step hp h
    exact .inr (.inl ⟨n, u, r, rfl, hc, ht⟩)
  | finish =>
    rw [step_of_finish s hp] at h
    exact .inr (.inr ⟨rfl, (Host.Outcome.next.inj h).symm⟩)

theorem run_succ {s t : State} (k : Nat) (h : step s = .next t) :
    Host.Core.run core (k + 1) s = Host.Core.run core k t := by
  simp only [Host.Core.run, core, h]

theorem keepsAllBut_endTick (s : State) : KeepsAllBut [.screen, .delayTimer, .soundTimer, .host] s (endTick s) := by
  intro p hp
  rw [endTick_eq]
  cases p <;> simp_all [Part.same, State.getV]

theorem keepsAllBut_beginTick (s : State) : KeepsAllBut [.screen, .host] s (beginTick s) := by
  intro p hp
  cases p <;> simp_all [Part.same, State.getV, beginTick]

/-- Settles O47: the halt ends the execute phase, the last phase counts the timers, and STATUS then stops the Scheduler. -/
theorem selfLoopEndsTheRun : Obligations.SelfLoopEndsTheRun := by
  intro n s nnn hp hs hl hf hpc
  have hself : zext16 nnn = s.pc := BitVec.eq_of_toNat_eq ((toNat_zext16 (by decide) nnn).trans hpc)
  have hd : decodeWord s.fetchWord = .ok (.jp nnn) := hf ▸ decodeWord_encode _
  have hhalt := step_of_decoded hp hs hl hd (exec_jp_self hself)
  refine ⟨_, (run_succ 1 hhalt).trans (run_succ 0 (step_of_finish _ rfl)), ?_⟩
  simp only [endTick_eq]
  exact ⟨⟨_, _, rfl⟩, rfl, toNat_countDown s.dt, toNat_countDown s.st, rfl⟩

/-- Settles O48: a stopped Engine's cycle changes nothing, the end of its tick writes no part of the Engine, and between
ticks the step stops. -/
theorem stoppedEngineStaysStopped : Obligations.StoppedEngineStaysStopped := by
  refine fun s hs => ⟨fun t h => ?_, fun hp => step_of_over hp hs⟩
  rcases step_cases h with ⟨-, hrun, -⟩ | ⟨n, u, r, -, hc, rfl⟩ | ⟨-, rfl⟩
  · exact absurd hrun hs
  · obtain ⟨rfl, -⟩ : s = u ∧ CycleResult.terminal = r := by simpa [cycle_of_stopped s hs] using hc
    exact ⟨rfl, rfl, rfl, rfl, rfl, rfl, rfl, rfl, rfl⟩
  · rw [endTick_eq]
    exact ⟨rfl, rfl, rfl, rfl, rfl, rfl, rfl, rfl, rfl⟩

/-- Settles O50: the step is `beginTick`, which takes the host's next snapshot. -/
theorem beginTickLatchesKeys : Obligations.BeginTickLatchesKeys := by
  refine fun s hp hs => ⟨_, step_of_start hp hs, fun k ks hk => ?_, fun hk => ?_, rfl, rfl, rfl, rfl, rfl, rfl,
    keepsAllBut_beginTick s⟩
  · exact ⟨s.nextKeys_given k ks hk, by simp [beginTick, hk]⟩
  · exact ⟨s.nextKeys_free hk, by simp [beginTick, hk]⟩

/-- Settles O52: the step is `endTick`. -/
theorem presentOnlyWhenDirty : Obligations.PresentOnlyWhenDirty := by
  refine fun s hp => ⟨_, step_of_finish s hp, ?_⟩
  rw [endTick_eq]
  exact ⟨rfl, rfl, rfl⟩

/-! ### The timers -/

theorem Effect.dt {i : Instr} {s t : State} (h : Effect i s t) :
    t.dt = s.dt ∨ ∃ x, i = .ldDtVx x ∧ t.dt = s.getV x := by
  cases h with
  | delay x hi => exact .inr ⟨x, hi, rfl⟩
  | _ => exact .inl rfl

theorem Effect.st {i : Instr} {s t : State} (h : Effect i s t) :
    t.st = s.st ∨ ∃ x, i = .ldStVx x ∧ t.st = s.getV x := by
  cases h with
  | sound x hi => exact .inr ⟨x, hi, rfl⟩
  | _ => exact .inl rfl

theorem cycle_dt {s t : State} {r : CycleResult} (h : cycle s = .next (t, r)) (ht : t.dt ≠ s.dt) :
    ∃ x, decodeWord s.fetchWord = .ok (.ldDtVx x) ∧ t.dt = s.getV x := by
  rcases cycle_stop_or_effect h with ⟨x, rfl⟩ | ⟨-, i, hd, heff⟩
  · exact absurd rfl ht
  · obtain ⟨x, rfl, hx⟩ := heff.dt.resolve_left ht
    exact ⟨x, hd, hx⟩

theorem cycle_st {s t : State} {r : CycleResult} (h : cycle s = .next (t, r)) (ht : t.st ≠ s.st) :
    ∃ x, decodeWord s.fetchWord = .ok (.ldStVx x) ∧ t.st = s.getV x := by
  rcases cycle_stop_or_effect h with ⟨x, rfl⟩ | ⟨-, i, hd, heff⟩
  · exact absurd rfl ht
  · obtain ⟨x, rfl, hx⟩ := heff.st.resolve_left ht
    exact ⟨x, hd, hx⟩

/-- Settles O53: the step is one cycle, which writes no part of the host's and a timer only by its own instruction. -/
theorem keypadAndTimersFixedInGroup : Obligations.KeypadAndTimersFixedInGroup := by
  intro n s t hp h
  obtain ⟨u, r, hc, rfl⟩ := cycle_of_step hp h
  obtain ⟨hkp, -, -, -, -, -, hticks, hpresents⟩ := cycle_keeps_host hc
  exact ⟨hkp, hpresents, hticks, cycle_dt (t := u) hc, cycle_st (t := u) hc⟩

theorem toNat_dt_iterate_timersTick (k : Nat) (s : State) : (State.timersTick^[k] s).dt.toNat = s.dt.toNat - k := by
  induction k generalizing s with
  | zero => rfl
  | succ k ih =>
    rw [Function.iterate_succ_apply, ih, State.timersTick, toNat_countDown]
    omega

theorem dt_iterate_timersTick_eq_zero {k : Nat} {s : State} (h : s.dt.toNat ≤ k) : (State.timersTick^[k] s).dt = 0 := by
  apply BitVec.eq_of_toNat_eq
  rw [toNat_dt_iterate_timersTick, Nat.sub_eq_zero_of_le h]
  rfl

/-- Settles O51: the end of a tick counts both timers, a begin of a tick counts none, and a cycle changes one only by its
own instruction. -/
theorem timersCountDownPerTick : Obligations.TimersCountDownPerTick := by
  refine ⟨fun s hp => ⟨_, step_of_finish s hp, ?_⟩, fun s t hp h => ?_, fun s h => ?_⟩
  · refine ⟨?_, ?_, rfl, ?_, keepsAllBut_endTick s⟩ <;> simp [endTick_eq]
  · rcases step_cases h with ⟨-, -, rfl⟩ | ⟨n, u, r, hn, hc, rfl⟩ | ⟨hfin, -⟩
    · exact ⟨fun hne => absurd rfl hne, fun hne => absurd rfl hne⟩
    · exact ⟨fun hne => ⟨⟨n, hn⟩, (cycle_dt hc hne).imp fun _ hx => hx.1⟩,
        fun hne => ⟨⟨n, hn⟩, (cycle_st hc hne).imp fun _ hx => hx.1⟩⟩
    · exact absurd hfin hp
  · exact ⟨dt_iterate_timersTick_eq_zero (by simp [h]), dt_iterate_timersTick_eq_zero (by simp [h])⟩

/-! ### Parameters and the invariant -/

theorem step_keeps_parameters {s t : State} (h : step s = .next t) :
    t.mem.font = s.mem.font ∧ t.opcodesPerFrame = s.opcodesPerFrame ∧ t.loaded = s.loaded := by
  rcases step_cases h with ⟨-, -, rfl⟩ | ⟨n, u, r, -, hc, rfl⟩ | ⟨-, rfl⟩
  · exact ⟨rfl, rfl, rfl⟩
  · obtain ⟨-, hloaded, -, hfont, hopf, -⟩ := cycle_keeps_host hc
    exact ⟨hfont, hopf, hloaded⟩
  · rw [endTick_eq]
    exact ⟨rfl, rfl, rfl⟩

/-- Settles O54: only a stopped machine between ticks answers no next state, and every step that answers keeps the three. -/
theorem parametersNeverChange : Obligations.ParametersNeverChange := by
  intro s
  cases hp : s.phase with
  | between =>
    by_cases hs : s.status = .running
    · exact .inr ⟨_, step_of_start hp hs, rfl, rfl, rfl⟩
    · exact .inl ⟨rfl, hs⟩
  | execute n =>
    obtain ⟨u, r, hc⟩ := exists_cycle s
    exact .inr ⟨_, step_of_cycle hp hc, step_keeps_parameters (step_of_cycle hp hc)⟩
  | finish => exact .inr ⟨_, step_of_finish s hp, step_keeps_parameters (step_of_finish s hp)⟩

theorem recordFaithful_of_running {s : State} (h : s.status = .running) : recordFaithful s := by
  simp [recordFaithful, h]

theorem inv_resetWith (font : Vector Byte 80) {n : Nat} (h : 0 < n) : Inv (State.resetWith font n) where
  memory := Memory.wf_empty font
  pcBound := by simp [State.resetWith]
  stackBound k := by simp [State.resetWith]
  loadedBound := Nat.zero_le _
  framePositive := h
  countBound _ hp := by cases hp
  stoppedLeaves hs := absurd rfl hs
  shownBetween _ := rfl
  record := recordFaithful_of_running rfl

/-- Settles O55: OPCODES_PER_FRAME, whatever it is, is a successor. -/
theorem resetMeetsInvariant : Obligations.ResetMeetsInvariant :=
  ⟨fun font _ h => inv_resetWith font h, inv_resetWith _ (Nat.succ_pos _)⟩

theorem Effect.mem_wf {i : Instr} {s t : State} (h : Effect i s t) (hwf : s.mem.wf = true) : t.mem.wf = true := by
  cases h with
  | store a bs => exact Memory.writeBytes_wf s.mem a bs hwf
  | _ => exact hwf

/-- An even PC below 4096 steps to at most 0x1000. -/
theorem toNat_pc_add_two_le {pc : Word} (h : legalPc pc = true) : (pc + 2).toNat ≤ 0x1000 := by
  have := (legalPc_iff pc).mp h
  rw [BitVec.toNat_add, show (2 : Word).toNat = 2 from rfl]
  omega

/-- PC after an instruction at a legal address: BNNN reaches furthest (R26, R41). -/
theorem Effect.pc_le {i : Instr} {s t : State} (h : Effect i s t) (hl : legalPc s.pc = true)
    (hstack : ∀ k : Fin 16, s.stack[k].toNat ≤ 0x1000) : t.pc.toNat ≤ 0x10FE := by
  have hpc := (legalPc_iff s.pc).mp hl
  have hnext := toNat_pc_add_two_le hl
  cases h with
  | halt | fault | wait => show s.pc.toNat ≤ 0x10FE; omega
  | jump w hw => exact hw
  | skip c =>
    have hskip : (s.pc + 4).toNat ≤ 0x10FE := by
      rw [BitVec.toNat_add, show (4 : Word).toNat = 4 from rfl]
      omega
    cases c with
    | false => exact hnext.trans (by decide)
    | true => exact hskip
  | ret _ _ k => exact (hstack k).trans (by decide)
  | call nnn => exact (toNat_zext16_addr_lt nnn).le.trans (by decide)
  | _ => exact hnext.trans (by decide)

/-- CALL pushes the even PC after it, which is at most 0x1000 (R26). -/
theorem Effect.stack_le {i : Instr} {s t : State} (h : Effect i s t) (hl : legalPc s.pc = true)
    (hstack : ∀ k : Fin 16, s.stack[k].toNat ≤ 0x1000) (k : Fin 16) : t.stack[k].toNat ≤ 0x1000 := by
  cases h with
  | call _ _ _ j =>
    simp only [State.setPc_stack, Fin.getElem_fin, Vector.getElem_set]
    split
    · exact toNat_pc_add_two_le hl
    · exact hstack k
  | _ => exact hstack k

theorem nnnField_zext16 (nnn : Addr) : nnnField (zext16 nnn) = nnn := by
  apply BitVec.eq_of_getLsbD_eq
  intro k hk
  simp [nnnField, zext16, hk, show k < 16 by omega]

/-- The word recorded by a stop is the word at PC, since a word that decodes is its instruction's. -/
theorem Effect.record {i : Instr} {s t : State} (h : Effect i s t) (hs : s.status = .running) (hl : legalPc s.pc = true)
    (hd : decodeWord s.fetchWord = .ok i) : recordFaithful t := by
  have hword := encodeOfDecodeIsIdentity _ i hd
  rcases h.status with hrun | ⟨nnn, rfl, hself, rfl⟩ | ⟨kind, hkind, rfl⟩
  · exact recordFaithful_of_running (hrun.trans hs)
  · refine ⟨rfl, hl, hword, ?_⟩
    rw [← hself, nnnField_zext16]
  · exact ⟨rfl, hl, hword, hkind⟩

/-- The recorded reason after any cycle that a running Engine makes. -/
theorem cycle_record {s t : State} {r : CycleResult} (hs : s.status = .running) (h : cycle s = .next (t, r)) :
    recordFaithful t := by
  rcases cycle_cases s t r h with ⟨hstop, -⟩ | ⟨-, hl, rfl, -⟩ | ⟨-, hl, -, rfl, -⟩ | ⟨-, hl, i, hd, he, -⟩
  · exact absurd hs hstop
  · exact ⟨rfl, hl, rfl⟩
  · exact ⟨rfl, hl, rfl, by decide⟩
  · exact (effect_of_exec he).record hs hl hd

theorem Inv.beginTick {s : State} (h : Inv s) (hs : s.status = .running) : Inv (beginTick s) where
  memory := h.memory
  pcBound := h.pcBound
  stackBound := h.stackBound
  loadedBound := h.loadedBound
  framePositive := h.framePositive
  countBound n hn := by cases hn; exact h.framePositive
  stoppedLeaves hstop := absurd hs hstop
  shownBetween hp := by cases hp
  record := recordFaithful_of_running hs

theorem Inv.endTick {s : State} (h : Inv s) : Inv (endTick s) := by
  rw [endTick_eq]
  exact
    { memory := h.memory
      pcBound := h.pcBound
      stackBound := h.stackBound
      loadedBound := h.loadedBound
      framePositive := h.framePositive
      countBound := fun n hn => by cases hn
      stoppedLeaves := fun _ n hn => by cases hn
      shownBetween := fun _ => rfl
      record := h.record }

/-- A cycle and the Scheduler's place after it: the Engine runs in the execute phase, so that a stop is one of this cycle's. -/
theorem Inv.cycle {n : Nat} {s t : State} {r : CycleResult} (h : Inv s) (hp : s.phase = .execute n)
    (hc : cycle s = .next (t, r)) : Inv { t with phase := phaseAfter n t.opcodesPerFrame r } := by
  have hs : s.status = .running := by
    by_contra hstop
    exact h.stoppedLeaves hstop n hp
  refine
    { memory := ?memory
      pcBound := ?pcBound
      stackBound := ?stackBound
      loadedBound := (cycle_loaded hc).le.trans h.loadedBound
      framePositive := h.framePositive.trans_eq (cycle_opcodesPerFrame hc).symm
      countBound := ?countBound
      stoppedLeaves := ?stoppedLeaves
      shownBetween := ?shownBetween
      record := cycle_record (t := t) hs hc }
  case memory =>
    rcases cycle_stop_or_effect hc with ⟨x, rfl⟩ | ⟨-, i, -, heff⟩
    · exact h.memory
    · exact heff.mem_wf h.memory
  case pcBound =>
    rcases cycle_stop_or_effect hc with ⟨x, rfl⟩ | ⟨hl, i, -, heff⟩
    · exact h.pcBound
    · exact heff.pc_le hl h.stackBound
  case stackBound =>
    rcases cycle_stop_or_effect hc with ⟨x, rfl⟩ | ⟨hl, i, -, heff⟩
    · exact h.stackBound
    · exact heff.stack_le hl h.stackBound
  case countBound =>
    intro m hm
    simp only [phaseAfter_eq] at hm
    split at hm
    case isTrue hgo => cases hm; exact hgo.2
    case isFalse => cases hm
  case stoppedLeaves =>
    intro hstop m hm
    rw [cycle_terminal hc hstop] at hm
    cases hm
  case shownBetween =>
    intro hb
    simp only [phaseAfter_eq] at hb
    split at hb <;> cases hb

/-- Settles O56: the invariant is kept by the begin of a tick, by a cycle, and by the end of a tick. -/
theorem stepKeepsInvariant : Obligations.StepKeepsInvariant := by
  intro s t hinv h
  rcases step_cases h with ⟨-, hs, rfl⟩ | ⟨n, u, r, hp, hc, rfl⟩ | ⟨-, rfl⟩
  · exact hinv.beginTick hs
  · exact hinv.cycle hp hc
  · exact hinv.endTick

end Sys2Proof.Machine

/-! PROOFS. What no instruction reads: the sound timer, a stack entry not in use, the Scheduler's place (R28, R33, D22); and that
`Tick` whole is its steps (R225). -/

namespace Sys2Proof.Machine

/-! ### Changing what no instruction reads -/

/-- The sound timer, the stack's entries and the Scheduler's place, each changed by a function. -/
def State.mapUnread (f : Byte → Byte) (g : Vector Word 16 → Vector Word 16) (h : Phase → Phase) (s : State) : State :=
  { s with st := f s.st, stack := g s.stack, phase := h s.phase }

section

variable (f : Byte → Byte) (g : Vector Word 16 → Vector Word 16) (h : Phase → Phase)

theorem State.mapUnread_pc (s : State) : (s.mapUnread f g h).pc = s.pc := rfl

theorem State.mapUnread_kp (s : State) : (s.mapUnread f g h).kp = s.kp := rfl

theorem State.mapUnread_outOfRange (s : State) (cnt : Nat) : (s.mapUnread f g h).outOfRange cnt = s.outOfRange cnt := rfl

/-- No instruction but 00EE, 2NNN and FX18 reads or writes one of the three: its test, if it has one, comes out alike, and
so does its effect. -/
theorem exec_mapUnread {i : Instr} {s t : State} (hret : i ≠ .ret) (hcall : ∀ nnn, i ≠ .call nnn)
    (hst : ∀ x, i ≠ .ldStVx x) (he : exec i s = .next t) : exec i (s.mapUnread f g h) = .next (t.mapUnread f g h) := by
  cases i with
  | ret => exact absurd rfl hret
  | call nnn => exact absurd rfl (hcall nnn)
  | ldStVx x => exact absurd rfl (hst x)
  | jp nnn =>
    by_cases hpc : zext16 nnn = s.pc <;>
      simp only [exec, execJp, State.mapUnread_pc, hpc, if_true, if_false] at he ⊢ <;> cases he <;> rfl
  | ldVxK x =>
    cases hk : lowestKey s.kp <;>
      simp only [exec, execLdVxK, State.mapUnread_kp, hk] at he ⊢ <;> cases he <;> rfl
  | drw x y n =>
    by_cases hr : s.outOfRange n.toNat = true <;>
      simp only [exec, execDrw, State.mapUnread_outOfRange, hr, if_true] at he ⊢ <;> cases he <;> rfl
  | ldB x =>
    by_cases hr : s.outOfRange 3 = true <;>
      simp only [exec, execLdB, State.mapUnread_outOfRange, hr, if_true] at he ⊢ <;> cases he <;> rfl
  | stRegs x =>
    by_cases hr : s.outOfRange (x.val + 1) = true <;>
      simp only [exec, execStRegs, State.mapUnread_outOfRange, hr, if_true] at he ⊢ <;> cases he <;> rfl
  | ldRegs x =>
    by_cases hr : s.outOfRange (x.val + 1) = true <;>
      simp only [exec, execLdRegs, State.mapUnread_outOfRange, hr, if_true] at he ⊢ <;> cases he <;> rfl
  | _ => cases he; rfl

/-- The call stack kept, 00EE and 2NNN read neither of the other two. -/
theorem exec_mapUnread_id {i : Instr} {s t : State} (hst : ∀ x, i ≠ .ldStVx x) (he : exec i s = .next t) :
    exec i (s.mapUnread f id h) = .next (t.mapUnread f id h) := by
  by_cases hret : i = .ret
  · subst hret
    by_cases hsp : 0 < s.sp.val
    · cases (exec_ret_of_pos s hsp).symm.trans he
      exact exec_ret_of_pos (s.mapUnread f id h) hsp
    · cases (exec_ret_of_empty s (by omega)).symm.trans he
      exact exec_ret_of_empty (s.mapUnread f id h) (Nat.eq_zero_of_not_pos hsp)
  by_cases hcall : ∃ nnn, i = .call nnn
  · obtain ⟨nnn, rfl⟩ := hcall
    by_cases hsp : s.sp.val < 16
    · cases (exec_call_of_lt nnn s hsp).symm.trans he
      exact exec_call_of_lt nnn (s.mapUnread f id h) hsp
    · have hfull : s.sp.val = 16 := by omega
      cases (exec_call_of_full nnn s hfull).symm.trans he
      exact exec_call_of_full nnn (s.mapUnread f id h) hfull
  exact exec_mapUnread f id h hret (fun nnn hi => hcall ⟨nnn, hi⟩) hst he

end

/-- Settles O41: FX18 overwrites the value, and no other instruction reads or writes it. -/
theorem soundTimerNeverRead : Obligations.SoundTimerNeverRead := by
  intro i s b
  obtain ⟨t, he, -⟩ := exec_effect i s
  refine ⟨t, he, ?_, fun hst => exec_mapUnread_id (fun _ => b) id hst he⟩
  rintro ⟨x, rfl⟩
  cases he
  rfl

/-! ### Entries not in use -/

/-- An instruction that does not use the call stack keeps whatever its entries hold. -/
theorem exec_withStack {i : Instr} {s t : State} (stack : Vector Word 16) (hret : i ≠ .ret) (hcall : ∀ nnn, i ≠ .call nnn)
    (he : exec i s = .next t) : exec i { s with stack := stack } = .next { t with stack := stack } := by
  by_cases hst : ∃ x, i = .ldStVx x
  · obtain ⟨x, rfl⟩ := hst
    cases he
    rfl
  · exact exec_mapUnread id (fun _ => stack) id hret hcall (fun x hi => hst ⟨x, hi⟩) he

theorem stack_notMem_writtenParts {i : Instr} (hret : i ≠ .ret) (hcall : ∀ nnn, i ≠ .call nnn) :
    Part.stack ∉ writtenParts i := by
  cases i <;> simp_all [writtenParts]

theorem sameButVacatedStack_withStack {s : State} {stack : Vector Word 16}
    (h : ∀ k : Fin 16, k.val < s.sp.val → stack[k] = s.stack[k]) : SameButVacatedStack s { s with stack := stack } :=
  ⟨rfl, h⟩

/-- Settles O42: a return reads the newest entry in use, a call writes the first entry not in use, and no other instruction
uses the stack. -/
theorem vacatedStackUnobservable : Obligations.VacatedStackUnobservable := by
  rintro i s s' ⟨hs', hk⟩
  generalize s'.stack = stack at hs' hk
  subst hs'
  by_cases hret : i = .ret
  · subst hret
    by_cases hsp : 0 < s.sp.val
    · have htop : stack[s.sp.val - 1] = s.stack[s.sp.val - 1] :=
        hk ⟨s.sp.val - 1, by omega⟩ (Nat.sub_lt hsp Nat.one_pos)
      refine ⟨_, _, exec_ret_of_pos s hsp, exec_ret_of_pos { s with stack := stack } hsp, ?_⟩
      rw [htop]
      exact sameButVacatedStack_withStack fun k hlt => hk k (Nat.lt_of_lt_of_le hlt (Nat.sub_le _ 1))
    · have hempty : s.sp.val = 0 := by omega
      exact ⟨_, _, exec_ret_of_empty s hempty, exec_ret_of_empty { s with stack := stack } hempty,
        sameButVacatedStack_withStack hk⟩
  by_cases hcall : ∃ nnn, i = .call nnn
  · obtain ⟨nnn, rfl⟩ := hcall
    by_cases hsp : s.sp.val < 16
    · refine ⟨_, _, exec_call_of_lt nnn s hsp, exec_call_of_lt nnn { s with stack := stack } hsp,
        sameButVacatedStack_withStack fun k hlt => ?_⟩
      have hlt : k.val < s.sp.val + 1 := hlt
      simp only [State.setPc_stack, Fin.getElem_fin, Vector.getElem_set]
      split
      · rfl
      · exact hk k (by omega)
    · have hfull : s.sp.val = 16 := by omega
      exact ⟨_, _, exec_call_of_full nnn s hfull, exec_call_of_full nnn { s with stack := stack } hfull,
        sameButVacatedStack_withStack hk⟩
  have hcall : ∀ nnn, i ≠ .call nnn := fun nnn hi => hcall ⟨nnn, hi⟩
  obtain ⟨t, he, heff⟩ := exec_effect i s
  obtain ⟨hsp, hstack⟩ := heff.keepsAllBut .stack (stack_notMem_writtenParts hret hcall)
  refine ⟨t, _, he, exec_withStack stack hret hcall he, sameButVacatedStack_withStack fun k hlt => ?_⟩
  rw [hstack k]
  exact hk k (hsp ▸ hlt)

/-! ### The tick and its steps -/

theorem exec_withPhase {i : Instr} {s t : State} (p : Phase) (he : exec i s = .next t) :
    exec i { s with phase := p } = .next { t with phase := p } := by
  by_cases hst : ∃ x, i = .ldStVx x
  · obtain ⟨x, rfl⟩ := hst
    cases he
    rfl
  · exact exec_mapUnread_id id (fun _ => p) (fun x hi => hst ⟨x, hi⟩) he

/-- A cycle does not look at the Scheduler's place. -/
theorem cycle_withPhase {s t : State} {r : CycleResult} (p : Phase) (h : cycle s = .next (t, r)) :
    cycle { s with phase := p } = .next ({ t with phase := p }, r) := by
  rcases cycle_cases s t r h with ⟨hs, rfl, rfl⟩ | ⟨hs, hl, rfl, rfl⟩ | ⟨hs, hl, ⟨e, hd⟩, rfl, rfl⟩ |
    ⟨hs, hl, i, hd, he, rfl⟩
  · exact cycle_of_stopped { t with phase := p } hs
  · exact cycle_of_illegal_pc { s with phase := p } hs hl
  · exact cycle_of_error { s with phase := p } e hs hl hd
  · exact cycle_of_ok { s with phase := p } { t with phase := p } i hs hl hd (exec_withPhase p he)

/-- One pass of the loop of R225: the loop is over, or it goes on with one slot fewer. -/
theorem executePhase_succ {slots : Nat} {s t : State} {r : CycleResult} (h : cycle s = .next (t, r)) :
    executePhase (slots + 1) s = if r = .proceed then executePhase slots t else .next t := by
  cases r <;> simp [executePhase, h]

/-- The execute phase with `slots` slots left is at most so many steps, each a cycle of the loop. -/
theorem run_executePhase (slots : Nat) : ∀ (n : Nat) (s : State), s.opcodesPerFrame = n + (slots + 1) →
    ∃ k t, k ≤ slots + 1 ∧ executePhase (slots + 1) s = .next t ∧
      Host.Core.run core k { s with phase := .execute n } = .next { t with phase := .finish } := by
  induction slots with
  | zero =>
    intro n s hopf
    obtain ⟨t, r, hc⟩ := exists_cycle s
    have hstep := step_of_cycle rfl (cycle_withPhase (.execute n) hc)
    have hphase : phaseAfter n t.opcodesPerFrame r = .finish := by
      rw [phaseAfter_eq, cycle_opcodesPerFrame hc, hopf, if_neg (by simp)]
    refine ⟨1, t, le_rfl, ?_, (run_succ 0 hstep).trans (by rw [hphase]; rfl)⟩
    rw [executePhase_succ hc]
    split <;> rfl
  | succ slots ih =>
    intro n s hopf
    obtain ⟨t, r, hc⟩ := exists_cycle s
    have hstep := step_of_cycle rfl (cycle_withPhase (.execute n) hc)
    have hopf' := cycle_opcodesPerFrame hc
    by_cases hr : r = .proceed
    · have hphase : phaseAfter n t.opcodesPerFrame r = .execute (n + 1) := by
        rw [phaseAfter_eq, if_pos ⟨hr, by omega⟩]
      obtain ⟨k, u, hk, hloop, hrun⟩ := ih (n + 1) t (by omega)
      refine ⟨k + 1, u, by omega, ?_, ?_⟩
      · rw [executePhase_succ hc, if_pos hr, hloop]
      · rw [run_succ k hstep, ← hrun, ← hphase]
    · have hphase : phaseAfter n t.opcodesPerFrame r = .finish := by
        rw [phaseAfter_eq, if_neg fun hgo => hr hgo.1]
      refine ⟨1, t, by omega, ?_, (run_succ 0 hstep).trans (by rw [hphase]; rfl)⟩
      rw [executePhase_succ hc, if_neg hr]

theorem endTick_withPhase (s : State) (p : Phase) : endTick { s with phase := p } = endTick s := by
  rw [endTick_eq, endTick_eq]

theorem run_append_step {k : Nat} {s t u : State} (hrun : Host.Core.run core k s = .next t) (h : step t = .next u) :
    Host.Core.run core (k + 1) s = .next u := by
  induction k generalizing s with
  | zero =>
    cases hrun
    exact run_succ 0 h
  | succ k ih =>
    cases hs : step s with
    | next v =>
      rw [run_succ k hs] at hrun
      rw [run_succ (k + 1) hs]
      exact ih hrun
    | fault f => simp [Host.Core.run, core, hs] at hrun
    | refused f => simp [Host.Core.run, core, hs] at hrun

/-- Settles O49: one step begins the tick, the loop's passes are the steps of the execute phase, and one step ends it. -/
theorem tickIsItsSteps : Obligations.TickIsItsSteps := by
  intro s hp hs hopf
  obtain ⟨slots, hslots⟩ := Nat.exists_eq_add_one.mpr hopf
  obtain ⟨k, t, hk, hloop, hrun⟩ := run_executePhase slots 0 (beginTick s) (hslots.trans (Nat.zero_add _).symm)
  have hbegin : Host.Core.run core (k + 1) s = .next { t with phase := .finish } :=
    (run_succ k (step_of_start hp hs)).trans hrun
  refine ⟨k + 2, endTick t, by omega, ?_, ?_, by rw [endTick_eq]⟩
  · rw [tick, hslots, hloop]
  · rw [← endTick_withPhase t .finish]
    exact run_append_step hbegin (step_of_finish _ rfl)

end Sys2Proof.Machine

/-! PROOFS. One instruction at a time (40_flow.md to 45_keypad_timer.md): the arithmetic with its flags, control transfer, the
skips, the index register and its memory, keypad and timers. -/

namespace Sys2Proof.Machine

/-! ### The arithmetic and its flags (42_alu.md) -/

theorem getV_flag (s : State) (x : Reg) (b : Byte) (f : Bool) :
    ((s.setV x b).setVF f).advance.getV 15 = flagByte f := by simp

theorem getV_drawFlag (s : State) (fb : Framebuffer) (f : Bool) :
    ((s.setScreen fb).setVF f).advance.getV 15 = flagByte f := by simp

/-- The result stays where the flag does not overwrite it (R23). -/
theorem getV_result (s : State) {x : Reg} (b : Byte) (f : Bool) (hx : x ≠ 15) :
    ((s.setV x b).setVF f).advance.getV x = b := by
  simp [State.getV_setV, hx]

/-- Settles O9: the 8-bit sum is the exact sum modulo 256, and the flag is the carry of the values before. -/
theorem addWithCarryResult : Obligations.AddWithCarryResult := by
  refine fun x y s => ⟨_, rfl, fun hx => ?sum, ?carry, setV_setVF_advance_frame s x _ _⟩
  case sum => rw [getV_result s _ _ hx, BitVec.toNat_add]
  case carry =>
    rw [getV_flag]
    simp [flagByte, carryFlag]

theorem toNat_sub_byte (a b : Byte) : (a - b).toNat = (a.toNat + 256 - b.toNat) % 256 := by
  rw [BitVec.toNat_sub]
  omega

theorem flagByte_noBorrowFlag (a b : Byte) : flagByte (noBorrowFlag a b) = if b.toNat > a.toNat then 0 else 1 := by
  by_cases h : b.toNat > a.toNat <;> simp [flagByte, noBorrowFlag, h]

/-- Settles O10: the difference is modulo 256, and the flag compares the values before. -/
theorem subtractResult : Obligations.SubtractResult := by
  refine fun x y s => ⟨_, rfl, fun hx => ?diff, ?borrow, setV_setVF_advance_frame s x _ _⟩
  case diff => rw [getV_result s _ _ hx, toNat_sub_byte]
  case borrow => rw [getV_flag, flagByte_noBorrowFlag]

/-- Settles O11: 8XY5 with the operands exchanged, the flag's too. -/
theorem reverseSubtractResult : Obligations.ReverseSubtractResult := by
  refine fun x y s => ⟨_, rfl, fun hx => ?diff, ?borrow, setV_setVF_advance_frame s x _ _⟩
  case diff => rw [getV_result s _ _ hx, toNat_sub_byte]
  case borrow => rw [getV_flag, flagByte_noBorrowFlag]

theorem toNat_flagByte_shiftedOutRight (a : Byte) : (flagByte (shiftedOutRight a)).toNat = a.toNat % 2 := by
  revert a; decide

theorem toNat_flagByte_shiftedOutLeft (a : Byte) : (flagByte (shiftedOutLeft a)).toNat = a.toNat / 128 := by
  revert a; decide

/-- Settles O12: shifting by one halves, or doubles modulo 256, and Y is not looked at. -/
theorem shiftResults : Obligations.ShiftResults := by
  refine fun x y s => ⟨⟨_, rfl, fun hx => ?half, ?low, setV_setVF_advance_frame s x _ _⟩,
    ⟨_, rfl, fun hx => ?double, ?high, setV_setVF_advance_frame s x _ _⟩⟩
  case half => rw [getV_result s _ _ hx, BitVec.toNat_ushiftRight, Nat.shiftRight_eq_div_pow, pow_one]
  case low => rw [getV_flag, toNat_flagByte_shiftedOutRight]
  case double => rw [getV_result s _ _ hx, BitVec.toNat_shiftLeft, Nat.shiftLeft_eq, pow_one]
  case high => rw [getV_flag, toNat_flagByte_shiftedOutLeft]

theorem flagByte_eq_zero_or_one (f : Bool) : flagByte f = 0 ∨ flagByte f = 1 := by
  cases f
  · exact .inl rfl
  · exact .inr rfl

theorem flagByte_eq_one_iff (f : Bool) : flagByte f = 1 ↔ f = true := by
  revert f; decide

/-- Settles O39: the six write `flagByte` to VF last, and a DXYN that does not is one that stops. -/
theorem flagIsZeroOrOne : Obligations.FlagIsZeroOrOne := by
  intro i s t hi hs he ht
  cases i with
  | addReg | sub | shr | subn | shl =>
    cases he
    rw [getV_flag]
    exact flagByte_eq_zero_or_one _
  | drw x y n =>
    cases hr : s.outOfRange n.toNat with
    | false =>
      cases (exec_drw_of_inRange x y hr).symm.trans he
      rw [getV_drawFlag]
      exact flagByte_eq_zero_or_one _
    | true =>
      cases (exec_drw_of_outOfRange x y hr).symm.trans he
      cases ht
  | _ => cases hi

/-- Settles O13: the byte drawn is the first given one, or the free one of this draw. -/
theorem randomByteMasked : Obligations.RandomByteMasked := by
  refine fun x nn s => ⟨_, s.drawByte, rfl, getV_setV_advance _ x _, ?mask, fun b bs h => ?given, fun h => ?free, rfl,
    keepsRegistersBut_setV_advance s.afterDraw x _, rfl, ?frame⟩
  case mask =>
    rw [getV_setV_advance, BitVec.and_assoc, BitVec.and_not_self]
    exact BitVec.and_zero
  case given => exact ⟨s.drawByte_given b bs h, congrArg List.tail h⟩
  case free => exact ⟨s.drawByte_free h, congrArg List.tail h⟩
  case frame =>
    exact ((keepsAllBut_afterDraw s).mono (by simp)).trans
      ((keepsAllBut_registers_setV_advance s.afterDraw x _).mono (by simp))

/-! ### Control transfer (40_flow.md) -/

/-- A raised fault is what `TakesFault` says (R205). -/
theorem takesFault_of_raise {kind : ExecutionFault} {i : Instr} {s : State}
    (h : exec i s = .next (s.raise kind (some (encode i)))) : TakesFault kind i s :=
  ⟨_, h, rfl, rfl, keepsAllBut_setStatus s _⟩

/-- Settles O14: the entry popped is the one below SP, and an empty stack faults. -/
theorem returnPopsOrUnderflows : Obligations.ReturnPopsOrUnderflows := by
  refine fun s => ⟨fun h => ⟨_, exec_ret_of_pos s h, rfl, fun k hk => ?_, fun _ => rfl,
    (keepsAllBut_withStack s _ _).setPc _⟩, fun h => takesFault_of_raise (exec_ret_of_empty s h)⟩
  simp [← hk]

theorem zext16_addr_eq_iff (nnn : Addr) (pc : Word) : zext16 nnn = pc ↔ nnn.toNat = pc.toNat := by
  rw [BitVec.toNat_eq, toNat_zext16 (by decide)]

/-- Settles O15: the test of the whole PC is the test of the two numbers. -/
theorem jumpOrSelfLoopHalt : Obligations.JumpOrSelfLoopHalt := by
  refine fun nnn s => ⟨fun h => ?halt, fun h => ?jump⟩
  case halt =>
    refine ⟨_, exec_jp_self ((zext16_addr_eq_iff nnn s.pc).mpr h), rfl, ⟨_, _, rfl⟩, ?_, rfl, keepsAllBut_setStatus s _⟩
    rintro ⟨_, _, _, hfault⟩
    cases hfault
  case jump =>
    exact ⟨_, exec_jp_other fun hself => h ((zext16_addr_eq_iff nnn s.pc).mp hself), toNat_zext16 (by decide) nnn,
      keepsAllBut_setPc s _⟩

/-- Settles O16: the entry pushed is the one at SP, and a full stack faults. -/
theorem callPushesOrOverflows : Obligations.CallPushesOrOverflows := by
  refine fun nnn s => ⟨fun h => ⟨_, exec_call_of_lt nnn s h, rfl, fun k => ?_, toNat_zext16 (by decide) nnn,
    (keepsAllBut_withStack s _ _).setPc _⟩, fun h => takesFault_of_raise (exec_call_of_full nnn s h)⟩
  simp only [State.setPc_stack, Fin.getElem_fin, Vector.getElem_set, eq_comm]

/-- Settles O17: the sum fits a word, so it is exact. -/
theorem jumpPlusV0 : Obligations.JumpPlusV0 :=
  fun nnn s => ⟨_, rfl, toNat_jumpPlusV0 (s.getV 0) nnn, keepsAllBut_setPc s _⟩

/-- Settles O18: the return pops the entry the call has pushed. -/
theorem callThenReturnRoundTrip : Obligations.CallThenReturnRoundTrip := by
  intro nnn s h
  refine ⟨_, _, exec_call_of_lt nnn s h, exec_ret_of_pos _ (Nat.succ_pos _), ?pc, rfl, fun k hk => ?below, ?frame⟩
  case pc => simp
  case below =>
    simp only [State.setPc_stack, Fin.getElem_fin, Vector.getElem_set]
    rw [if_neg (by omega)]
  case frame => exact ((keepsAllBut_withStack s _ _).setPc _).trans ((keepsAllBut_withStack _ _ _).setPc _)

/-! ### Skips (41_skip.md, 45_keypad_timer.md) -/

/-- A skip sets PC by its condition and changes nothing else (R124). -/
theorem skip_of_exec {i : Instr} {s : State} {c : Bool} {p : Prop} [Decidable p] (hc : c = true ↔ p)
    (he : exec i s = .next (s.skipIf c)) :
    ∃ t, exec i s = .next t ∧ t.pc = (if p then s.pc + 4 else s.pc + 2) ∧ KeepsAllBut [] s t :=
  ⟨_, he, by simp [hc], keepsAllBut_setPc s _⟩

/-- Settles O19: the conditions are the equality of the byte and its negation. -/
theorem skipOnImmediate : Obligations.SkipOnImmediate :=
  fun _ _ _ => ⟨skip_of_exec beq_iff_eq rfl, skip_of_exec bne_iff_ne rfl⟩

/-- Settles O20: the skips as in O19, and the illegal words of groups 5 and 9. -/
theorem skipOnRegisters : Obligations.SkipOnRegisters := by
  refine ⟨fun x y s => ⟨skip_of_exec beq_iff_eq rfl, skip_of_exec bne_iff_ne rfl⟩, fun w hop hn => ?_⟩
  rcases hop with hop | hop
  · rw [decodeWord_of_op5 hop, if_neg hn]
  · rw [decodeWord_of_op9 hop, if_neg hn]

/-- The key number is the value modulo 16 (R187). -/
theorem keyNumber_eq (b : Byte) : keyNumber b = b.toNat % 16 := by
  revert b; decide

/-- Settles O21: the condition is the bit of the latch at the key number, and its negation. -/
theorem skipOnKey : Obligations.SkipOnKey := by
  refine fun x s => ⟨skip_of_exec ?_ rfl, skip_of_exec ?_ rfl⟩
  · rw [keyPressed, keyNumber_eq]
  · rw [keyPressed, keyNumber_eq, Bool.not_eq_true']

/-! ### Index register and memory (43_index_memory.md) -/

/-- Settles O23: the 16-bit sum is the exact sum modulo 65536. -/
theorem addToIndexWraps : Obligations.AddToIndexWraps := by
  refine fun x s => ⟨_, rfl, ?_, rfl, keepsAllBut_index_setI_advance s _⟩
  rw [State.advance_eq, State.setPc_i, State.setI_i, BitVec.toNat_add, toNat_zext16 (by decide)]

/-- The bytes stored at I are read back there (R53, R153, R154). -/
theorem read_store (s : State) (bs : List Byte) {k : Nat} {b : Byte} (hb : bs[k]? = some b)
    (h : s.i.toNat + bs.length ≤ 4096) :
    (s.setMem (s.mem.writeBytes s.i.toNat bs)).advance.mem.read (s.i.toNat + k) = b :=
  Memory.read_writeBytes_inside s.mem s.i.toNat k bs b hb h

theorem read_store_outside (s : State) (bs : List Byte) {a : Nat} (h : a < s.i.toNat ∨ s.i.toNat + bs.length ≤ a) :
    (s.setMem (s.mem.writeBytes s.i.toNat bs)).advance.mem.read a = s.mem.read a :=
  Memory.read_writeBytes_outside s.mem s.i.toNat a bs h

theorem outOfRange_eq_false {s : State} {cnt : Nat} (h : s.i.toNat + cnt ≤ 4096) : s.outOfRange cnt = false :=
  (s.outOfRange_false_iff cnt).mpr (.inr h)

theorem outOfRange_eq_true {s : State} {cnt : Nat} (hpos : 0 < cnt) (h : 4096 < s.i.toNat + cnt) : s.outOfRange cnt = true :=
  (s.outOfRange_iff cnt).mpr ⟨hpos, h⟩

theorem toNat_byte_ofNat {n : Nat} (h : n < 256) : (BitVec.ofNat 8 n).toNat = n :=
  BitVec.toNat_ofNat n 8 ▸ Nat.mod_eq_of_lt h

/-- Settles O24: each of the three bytes stored is one decimal digit. -/
theorem decimalDigitsStored : Obligations.DecimalDigitsStored := by
  refine fun x s => ⟨fun h => ?store, fun h =>
    takesFault_of_raise (exec_ldB_of_outOfRange x (outOfRange_eq_true (by omega) (by omega)))⟩
  have hlen : s.i.toNat + (decimalDigits (s.getV x)).length ≤ 4096 := show s.i.toNat + 3 ≤ 4096 by omega
  have hdigit : ∀ k n, (decimalDigits (s.getV x))[k]? = some (BitVec.ofNat 8 n) → n < 256 →
      ((s.setMem (s.mem.writeBytes s.i.toNat (decimalDigits (s.getV x)))).advance.mem.read (s.i.toNat + k)).toNat = n :=
    fun k n hk hn => by rw [read_store s _ hk hlen, toNat_byte_ofNat hn]
  exact ⟨_, exec_ldB_of_inRange x (outOfRange_eq_false (by omega)), hdigit 0 _ rfl (by omega), hdigit 1 _ rfl (by omega),
    hdigit 2 _ rfl (by omega), fun a ha => read_store_outside s _ ha, rfl, (keepsAllBut_writeBytes s _ _).advance⟩

theorem decodeGroupF_of_nn55 {w : Word} (h : nnField w = 0x55) : decodeGroupF w = .ok (.stRegs (xReg w)) := by
  simp [decodeGroupF, h]

/-- FX55 that lies in memory: the byte at I + k is `V[k]`, and every other byte is as before (R154). -/
theorem read_store_registerBlock {x : Reg} {s : State} (h : s.i.toNat + x.val ≤ 4095) {r : Reg} (hr : r ≤ x) :
    (s.setMem (s.mem.writeBytes s.i.toNat (s.registerBlock x))).advance.mem.read (s.i.toNat + r.val) = s.getV r :=
  read_store s _ (s.getElem_registerBlock x r hr) (by rw [State.length_registerBlock]; omega)

/-- Settles O25: the byte stored at I + k is `V[k]`, and the range test covers the whole block. -/
theorem storeRegistersResult : Obligations.StoreRegistersResult := by
  refine ⟨fun w hop hnn => by rw [decodeWord_of_opF hop, decodeGroupF_of_nn55 hnn], fun x s => ⟨fun h => ?store, fun h =>
    takesFault_of_raise (exec_stRegs_of_outOfRange (outOfRange_eq_true (by omega) (by omega)))⟩⟩
  refine ⟨_, exec_stRegs_of_inRange (outOfRange_eq_false (by omega)), fun r hr => read_store_registerBlock h hr,
    fun a ha => read_store_outside s _ ?_, rfl, (keepsAllBut_writeBytes s _ _).advance⟩
  rw [State.length_registerBlock]
  omega

/-- Settles O26: the load is `getV_loadBlock`, and the range test covers the whole block. -/
theorem loadRegistersResult : Obligations.LoadRegistersResult := fun x s =>
  ⟨fun h => ⟨_, exec_ldRegs_of_inRange (outOfRange_eq_false (by omega)), s.getV_loadBlock s.i.toNat x, rfl,
      (keepsAllBut_loadBlock s _ x).advance⟩,
    fun h => takesFault_of_raise (exec_ldRegs_of_outOfRange (outOfRange_eq_true (by omega) (by omega)))⟩

/-- Settles O28: the load reads each register's byte where the store has put it, since the store leaves I. -/
theorem storeThenLoadRestores : Obligations.StoreThenLoadRestores := by
  intro x s v h
  have hrange : s.outOfRange (x.val + 1) = false := outOfRange_eq_false (by omega)
  refine ⟨_, _, exec_stRegs_of_inRange hrange, exec_ldRegs_of_inRange (x := x) hrange, fun r hr => ?_, fun r hr => ?_⟩
  · rw [State.advance_eq, State.setPc_getV, State.getV_loadBlock, if_pos hr]
    exact read_store_registerBlock h hr
  · rw [State.advance_eq, State.setPc_getV, State.getV_loadBlock, if_neg (not_le.mpr hr)]
    rfl

/-- Settles O29: the two bytes stored are the word fetched. -/
theorem storedWordIsExecuted : Obligations.StoredWordIsExecuted := by
  intro x k k' s n i h hk' hle hd
  refine ⟨_, exec_stRegs_of_inRange (outOfRange_eq_false (by omega)), fun u hmem hpc hl hs hp => ?_⟩
  have hhi := read_store_registerBlock h (r := k) (le_trans (Fin.le_def.mpr (by omega)) hle)
  have hlo := read_store_registerBlock h hle
  refine step_executes hp hs hl ?_
  rw [State.fetchWord, Memory.readWord, hmem, hpc, hhi, Nat.add_assoc, ← hk', hlo, hd]

/-! ### Keypad and timers (45_keypad_timer.md) -/

/-- Settles O35: each writes the one cell its frame names. -/
theorem timerInstructions : Obligations.TimerInstructions := fun x s =>
  ⟨⟨_, rfl, getV_setV_advance s x s.dt, setV_advance_frame s x s.dt⟩,
    ⟨_, rfl, rfl, rfl, (keepsAllBut_setDt s _).advance⟩, ⟨_, rfl, rfl, rfl, (keepsAllBut_setSt s _).advance⟩⟩

/-- Settles O36: the search for a pressed key fails exactly when none is, and else finds the lowest. -/
theorem waitKeyResult : Obligations.WaitKeyResult := by
  refine fun x s => ⟨fun h => exec_ldVxK_none x ((lowestKey_eq_none_iff s.kp).mpr h), fun h => ?_⟩
  obtain ⟨k, hk⟩ := Option.ne_none_iff_exists'.mp ((lowestKey_eq_none_iff s.kp).not.mpr h)
  obtain ⟨hlt, hpressed, hlowest⟩ := lowestKey_some s.kp k hk
  refine ⟨_, k, exec_ldVxK_some x hk, hlt, hpressed, hlowest, ?_, setV_advance_frame s x _⟩
  rw [getV_setV_advance, toNat_byte_ofNat (by omega)]

end Sys2Proof.Machine

/-! PROOFS. 44_display.md: 00E0 and DXYN, pixel by pixel (R170 to R177). -/

namespace Sys2Proof.Machine

/-! ### 00E0 -/

/-- Settles O30: a word decodes to 00E0 exactly when it is its encoding. -/
theorem clearScreenResult : Obligations.ClearScreenResult :=
  ⟨fun w => decodeWord_eq_ok_iff w .cls,
    fun s => ⟨_, rfl, fun b => by simp, rfl, rfl, (keepsAllBut_setScreen s _).advance⟩⟩

/-! ### What a sprite does to the pixels -/

theorem Memory.getD_readBytes (m : Memory) (a n k : Nat) :
    (m.readBytes a n).getD k 0 = if k < n then m.read (a + k) else 0 := by
  rw [List.getD_eq_getElem?_getD]
  split
  case isTrue h => rw [Memory.getElem_readBytes m a n k h, Option.getD_some]
  case isFalse h => rw [List.getElem?_eq_none (by rw [Memory.length_readBytes]; omega), Option.getD_none]

/-- The rows read from memory have the bits `spritePixel` names (R173, R174). -/
theorem rowsBit_readBytes (s : State) (x : Nat) {y : Nat} (n px py : Nat) (hy : y < 32) :
    rowsBit x y (s.mem.readBytes s.i.toNat n) px py = spritePixel s x y n px py := by
  rw [rowsBit, Memory.getD_readBytes, Nat.mod_eq_of_lt hy, spritePixel]
  split
  case isTrue h => rw [decide_eq_true h, Bool.true_and]
  case isFalse h =>
    rw [decide_eq_false h, BitVec.ofNat_eq_ofNat, BitVec.getLsbD_zero, Bool.and_false, Bool.false_and, Bool.false_and]

/-- On the grid a sprite toggles exactly its pixels. -/
theorem pixel_drawSprite (s : State) {x y : Byte} {n px py : Nat} (hn : n ≤ 32) (hx : x.toNat < 64) (hy : y.toNat < 32)
    (hpx : px < 64) (hpy : py < 32) : pixel (s.drawSprite x y n).fb px py =
      Bool.xor (pixel s.fb px py) (spritePixel s x.toNat y.toNat n px py) := by
  rw [State.drawSprite_on_grid s x y n hx hy, Drawing.pixel_rows _ _ _ _ _ _ (by simpa using hn) hx hpx hpy,
    rowsBit_readBytes s _ _ _ _ hy]

theorem not_pixelCleared_self (fb : Framebuffer) : ¬ PixelCleared fb fb := by
  rintro ⟨px, py, -, -, hset, hclear⟩
  rw [hset] at hclear
  cases hclear

/-- A drawing collides exactly when it turns a pixel off; off the grid it does neither (R175, R176). -/
theorem coll_drawSprite_iff (s : State) (x y : Byte) {n : Nat} (hn : n ≤ 32) :
    (s.drawSprite x y n).coll = true ↔ PixelCleared s.fb (s.drawSprite x y n).fb := by
  by_cases hgrid : x.toNat < 64 ∧ y.toNat < 32
  · obtain ⟨hx, hy⟩ := hgrid
    have hcoll : (s.drawSprite x y n).coll = true ↔ ∃ px py, px < 64 ∧ py < 32 ∧ pixel s.fb px py = true ∧
        spritePixel s x.toNat y.toNat n px py = true := by
      rw [State.drawSprite_on_grid s x y n hx hy, Drawing.coll_rows _ _ _ _ (by simpa using hn) hx]
      simp only [rowsBit_readBytes s _ _ _ _ hy, Bool.false_eq_true, false_or]
    rw [hcoll, PixelCleared]
    refine exists₂_congr fun px py => and_congr_right fun hpx => and_congr_right fun hpy => and_congr_right fun hset => ?_
    rw [pixel_drawSprite s hn hx hy hpx hpy, hset, Bool.true_xor, Bool.not_eq_false']
  · rw [State.drawSprite_off_grid s x y n (by omega)]
    exact ⟨fun h => (Bool.false_ne_true h).elim, fun h => (not_pixelCleared_self s.fb h).elim⟩

/-- Drawn again at the same place, a sprite toggles the same pixels back (R177). -/
theorem drawSprite_again {s t : State} (x y : Byte) {n : Nat} (hn : n ≤ 32) (hmem : t.mem = s.mem) (hi : t.i = s.i)
    (hfb : t.fb = (s.drawSprite x y n).fb) : (t.drawSprite x y n).fb = s.fb := by
  by_cases hgrid : x.toNat < 64 ∧ y.toNat < 32
  · obtain ⟨hx, hy⟩ := hgrid
    have hsame : ∀ px py, spritePixel t x.toNat y.toNat n px py = spritePixel s x.toNat y.toNat n px py := fun px py => by
      rw [spritePixel, spritePixel, hmem, hi]
    refine framebuffer_ext _ _ fun px py hpx hpy => ?_
    rw [pixel_drawSprite t hn hx hy hpx hpy, hfb, pixel_drawSprite s hn hx hy hpx hpy, hsame, Bool.xor_assoc, Bool.xor_self,
      Bool.xor_false]
  · rw [State.drawSprite_off_grid t x y n (by omega), hfb, State.drawSprite_off_grid s x y n (by omega)]

/-! ### DXYN -/

theorem nibble_le_32 (n : Nibble) : n.toNat ≤ 32 := by omega

/-- Settles O27: the range test comes before everything else, and with N = 0 it passes. -/
theorem drawOutOfRangeFaults : Obligations.DrawOutOfRangeFaults := fun x y n s =>
  ⟨fun hpos h => takesFault_of_raise (exec_drw_of_outOfRange x y (outOfRange_eq_true hpos (by omega))),
    fun h => ⟨_, exec_drw_of_inRange x y ((s.outOfRange_false_iff _).mpr (.inl h)), rfl, rfl⟩⟩

/-- Settles O31: the pixels are those of `drawSprite`, the rest is the frame of DXYN. -/
theorem drawTogglesSpritePixels : Obligations.DrawTogglesSpritePixels := fun x y n s h hx hy =>
  ⟨_, exec_drw_of_inRange x y (outOfRange_eq_false h),
    fun _ _ hpx hpy => pixel_drawSprite s (nibble_le_32 n) hx hy hpx hpy, rfl, setScreen_setVF_advance_frame s _ _⟩

/-- Settles O32: VF is the collision of the drawing. -/
theorem drawReportsCollision : Obligations.DrawReportsCollision := by
  refine fun x y n s _ h _ _ => ⟨_, exec_drw_of_inRange x y (outOfRange_eq_false h), ?_⟩
  have hcoll := coll_drawSprite_iff s (s.getV x) (s.getV y) (nibble_le_32 n)
  rw [getV_drawFlag]
  exact ⟨fun hcleared => by rw [hcoll.mpr hcleared]; rfl,
    fun hkept => by rw [Bool.eq_false_iff.mpr (hcoll.not.mpr hkept)]; rfl⟩

/-- With an origin off the grid or no byte to draw, nothing is drawn (R172, R176). -/
theorem drawSprite_nothing (s : State) {x y : Byte} {n : Nat} (h : n = 0 ∨ 64 ≤ x.toNat ∨ 32 ≤ y.toNat) :
    s.drawSprite x y n = { fb := s.fb, coll := false } := by
  rcases h with rfl | h
  · simp [State.drawSprite, Memory.readBytes, Drawing.rows]
  · exact s.drawSprite_off_grid x y n h

/-- Settles O33: with nothing drawn the framebuffer set is the old one and the flag is that of no collision. -/
theorem drawNothingCases : Obligations.DrawNothingCases := by
  refine fun x y n s h hnothing => ⟨_, exec_drw_of_inRange x y ((s.outOfRange_false_iff _).mpr h), ?_⟩
  rw [drawSprite_nothing s hnothing]
  exact ⟨rfl, getV_drawFlag s _ _, rfl, setScreen_setVF_advance_frame s _ _⟩

/-- Settles O34: the first draw leaves memory and I, so the second toggles the same pixels, and it collides exactly when it
turns one off. -/
theorem drawTwiceRestores : Obligations.DrawTwiceRestores := by
  intro x y n s h
  have hrange := (s.outOfRange_false_iff n.toNat).mpr h
  obtain ⟨t, ht, he⟩ : ∃ t : State, t = ((s.setScreen (s.drawSprite (s.getV x) (s.getV y) n.toNat).fb).setVF
      (s.drawSprite (s.getV x) (s.getV y) n.toNat).coll).advance ∧ exec (.drw x y n) s = .next t :=
    ⟨_, rfl, exec_drw_of_inRange x y hrange⟩
  have hagain : (State.drawSprite { t with v := s.v } (s.getV x) (s.getV y) n.toNat).fb = s.fb :=
    drawSprite_again _ _ (nibble_le_32 n) (by simp [ht]) (by simp [ht]) (by simp [ht])
  have hrange' : State.outOfRange { t with v := s.v } n.toNat = false := by subst ht; exact hrange
  refine ⟨t, _, he, exec_drw_of_inRange x y hrange', hagain, ?_⟩
  rw [getV_drawFlag, flagByte_eq_one_iff]
  exact (coll_drawSprite_iff { t with v := s.v } (s.getV x) (s.getV y) (nibble_le_32 n)).trans (by rw [hagain])

end Sys2Proof.Machine

/-! PROOFS. 70_reset_and_hazards.md: the reset values, `LoadRom` and the boot order (R250 to R258). -/

namespace Sys2Proof.Machine

/-! ### Reset -/

theorem read_resetWith (font : Vector Byte 80) (opf a : Nat) :
    (State.resetWith font opf).mem.read a = if h : a < 80 then font[a] else 0 := rfl

/-- Settles O57: memory with nothing listed reads as FONT and then 0; the other cells are written out. -/
theorem resetValues : Obligations.ResetValues := by
  refine fun font opf => ⟨_, rfl, fun r => ?_, rfl, rfl, fun a => ?_, fun a ha => ?_, fun k => ?_, rfl, fun b => ?_, rfl, rfl,
    rfl, rfl, rfl, rfl⟩
  · simp [State.getV, State.resetWith]
  · exact (read_resetWith font opf a).trans (dif_pos a.isLt)
  · exact (read_resetWith font opf a).trans (dif_neg (not_lt.mpr ha))
  · simp [State.resetWith]
  · simp [State.resetWith]

/-! ### `LoadRom` -/

theorem length_romBytes (stream : List Byte) : (romBytes stream).length = min stream.length 3584 := by
  rw [romBytes, List.length_take, Nat.min_comm]

theorem read_loadRom (s : State) (stream : List Byte) {j : Nat} {b : Byte} (hj : j < 3584) (hb : stream[j]? = some b) :
    (s.loadRom stream).mem.read (0x200 + j) = b := by
  refine Memory.read_writeBytes_inside s.mem 0x200 j (romBytes stream) b ?_ ?_
  · rw [romBytes, List.getElem?_take_of_lt hj, hb]
  · rw [length_romBytes]
    omega

theorem read_loadRom_outside (s : State) (stream : List Byte) {a : Nat}
    (ha : a < 0x200 ∨ 0x200 + min stream.length 3584 ≤ a) : (s.loadRom stream).mem.read a = s.mem.read a :=
  Memory.read_writeBytes_outside s.mem 0x200 a (romBytes stream) (by rwa [length_romBytes])

theorem loadError_eq_emptyRom_iff (stream : List Byte) : loadError stream = some .emptyRom ↔ stream.length = 0 := by
  unfold loadError
  split_ifs <;> simp_all

theorem loadError_eq_romTooLarge_iff (stream : List Byte) :
    loadError stream = some .romTooLarge ↔ stream.length > 3584 := by
  unfold loadError
  split_ifs <;> simp_all

theorem loadError_eq_none_iff (stream : List Byte) :
    loadError stream = none ↔ 0 < stream.length ∧ stream.length ≤ 3584 := by
  have hmax : Config.romMax = 3584 := rfl
  unfold loadError
  split_ifs with hempty hlarge
  · simp [hempty]
  · simp only [false_iff]
    omega
  · simp only [true_iff]
    omega

/-- Settles O58: the block written is the part of the stream that fits, and the load error looks at the length alone. -/
theorem loadRomResult : Obligations.LoadRomResult := fun s stream =>
  ⟨fun _ _ => read_loadRom s stream, fun _ => read_loadRom_outside s stream, length_romBytes stream, rfl,
    loadError_eq_emptyRom_iff stream, loadError_eq_romTooLarge_iff stream, loadError_eq_none_iff stream⟩

/-! ### Boot -/

/-- After reset and load, a byte the ROM lacks reads as 0 (R258). -/
theorem read_loadRom_resetWith (font : Vector Byte 80) (opf : Nat) (stream : List Byte) {j : Nat} (hj : j < 3584) :
    ((State.resetWith font opf).loadRom stream).mem.read (0x200 + j) = stream.getD j 0 := by
  rw [List.getD_eq_getElem?_getD]
  cases hb : stream[j]? with
  | some b => exact read_loadRom _ stream hj hb
  | none =>
    have hlen := List.getElem?_eq_none_iff.mp hb
    rw [read_loadRom_outside _ stream (by omega), read_resetWith, dif_neg (by omega)]
    rfl

/-- Settles O59: the first step begins a tick, which leaves PC and memory; the word at PC is then the ROM's first. -/
theorem bootRunsFirstWord : Obligations.BootRunsFirstWord := by
  refine fun font opf stream => ⟨fun h => ?error, fun i hpos hle hd => ?run⟩
  case error =>
    have hne : loadError stream ≠ none := fun hnone => by
      obtain ⟨hpos, hle⟩ := (loadError_eq_none_iff stream).mp hnone
      omega
    obtain ⟨e, he⟩ := Option.ne_none_iff_exists'.mp hne
    exact ⟨e, by rw [boot, he]⟩
  case run =>
    have hboot : boot font opf stream = .ok ((State.resetWith font opf).loadRom stream) := by
      rw [boot, (loadError_eq_none_iff stream).mpr ⟨hpos, hle⟩]
    have hfetch : (beginTick ((State.resetWith font opf).loadRom stream)).fetchWord =
        wordOfBytes (stream.getD 0 0) (stream.getD 1 0) :=
      congrArg₂ wordOfBytes (read_loadRom_resetWith font opf stream (j := 0) (by decide))
        (read_loadRom_resetWith font opf stream (j := 1) (by decide))
    obtain ⟨u, p, he, hstep⟩ := step_executes (n := 0) (s := beginTick ((State.resetWith font opf).loadRom stream)) rfl rfl
      (by decide : legalPc 0x200 = true) (hfetch ▸ hd)
    exact ⟨_, _, u, p, hboot, step_of_start rfl rfl, rfl, he, hstep⟩

end Sys2Proof.Machine
